-- ==== Sys2Proof/Word.lean ====
section
/-! DEFINITION. Sys2Proof/Word.lean: the byte every datum of the machine is made of, and the names of the four registers
(spec/10_state.md R10, R11; spec/00_scope.md R4 rows NREGS, XLEN, ADDRW, PCW; the widths are also named in Config). -/

namespace Sys2Proof

/-- A byte: the width of a register, of an address, of the program counter, of a memory cell and of an operand
(`XLEN` = `ADDRW` = `PCW` = 8, R4; decisions D1 and D2 of the spec). -/
abbrev Byte := BitVec 8

/-- The four general registers (R10: A = 0, B = 1, C = 2, D = 3). None is hard-wired (R12). -/
inductive Reg where
  | A | B | C | D
  deriving DecidableEq, Repr

end Sys2Proof
end

