-- ==== Sys2Proof/Machine/Memory.lean ====
section
/-! DEFINITION. Sys2Proof/Machine/Memory.lean: the 256-byte memory of spec/10_state.md R22 and spec/20_memory.md R30 to R40 as a list of
(address, byte) cells in one canonical form. A byte nothing has written has no value (R24, R25; log 4), so an unlisted address reads
as `none`, and no cell can equal that. -/

namespace Sys2Proof.Machine

/-- Memory as its written bytes. -/
abbrev Memory := List Host.Cell

/-- `MemRead(a, 1)` (R36): the byte at address `a`, none if nothing has written it. -/
def Memory.read : Memory → Byte → Option Byte
  | [], _ => none
  | (k, v) :: rest, a => if k = a.toNat then some v else Memory.read rest a

/-- `MemWrite(a, 1, v)` (R37): set the byte at address `a`, and change nothing else. The cells stay in order of their addresses. -/
def Memory.write : Memory → Byte → Byte → Memory
  | [], a, v => [(a.toNat, v)]
  | (k, w) :: rest, a, v =>
    if a.toNat < k then (a.toNat, v) :: (k, w) :: rest
    else if k = a.toNat then (k, v) :: rest
    else (k, w) :: Memory.write rest a v

/-- The cells' addresses all exceed `lo` (when there is such a bound), rise strictly and lie below 256. -/
def Memory.risingFrom : Option Nat → Memory → Bool
  | _, [] => true
  | none, (k, _) :: rest => decide (k < 256) && Memory.risingFrom (some k) rest
  | some lo, (k, _) :: rest => decide (lo < k) && decide (k < 256) && Memory.risingFrom (some k) rest

/-- The canonical form: addresses strictly rising, each one of the 256 addresses of R30. -/
def Memory.wf (m : Memory) : Bool := Memory.risingFrom none m

/-- The memory the host leaves behind when it has placed the bytes of `IMAGE` (R164), a list of address and byte pairs. -/
def Memory.ofImage : List (Byte × Byte) → Memory
  | [] => []
  | (a, v) :: rest => Memory.write (Memory.ofImage rest) a v

end Sys2Proof.Machine
end

