-- ==== Sys2Proof/Config.lean ====
section
/-! DEFINITION. Sys2Proof/Config.lean: the implementation parameters of spec/00_scope.md R4 that the spec decides, as the fields of one
structure (R4: "A model should make every row marked with a decision a field of its configuration"). The values the 8 Bit Computer takes
are `Sys2Proof.Machine.params` (Machine/Params.lean). A parameter for which the spec names no alternative has a type with its one value, so
that the operation which follows it is a match with one arm, and another value cannot be had without saying what it does. The two rows
with ground "source" alone are types: NREGS (`Reg`) and ADDRW (`Byte`). The OPEN parameters RESET_REGS, RESET_Z, RESET_OUT and IMAGE are
arguments of `State.resetIn` and `State.resetOf`. Log 7. -/

namespace Sys2Proof

/-- `XLEN` and `PCW` (decisions D1, D2): the width to which a register's value and the program counter are narrowed. -/
inductive Width where
  | bits8
  deriving DecidableEq, Repr

/-- `MEM_SIZE` (R33, decision D5): how many bytes are implemented. -/
inductive MemSize where
  | bytes256
  deriving DecidableEq, Repr

/-- `INSTR_ORDER` (R34, decision D6): which byte of a two-byte instruction is at the lower address. -/
inductive InstrOrder where
  | opcodeFirst
  deriving DecidableEq, Repr

/-- `Z_RULE` (R18, decision D14): the value a result gives the Zero flag. -/
inductive ZRule where
  | setIfZero
  deriving DecidableEq, Repr

/-- `ILLEGAL_POLICY` (R63, decisions D18, D19): what a first byte that spells no instruction does; every bit of the byte is decoded. -/
inductive IllegalPolicy where
  | fault
  deriving DecidableEq, Repr

/-- `PC_WRAP` (R15, decision D3): what `pc + n` does past 0xFF. -/
inductive PcWrap where
  | wrap   -- modulo 256
  | fault  -- the model fault `PcOverflow`
  deriving DecidableEq, Repr

/-- `MEM_ORG` (R32, decision D4). Under `split` a fetch reads a program store "that no instruction can write or read as data",
so that store never changes during a run and is part of the configuration (log 9). -/
inductive MemOrg where
  | unified
  | split (program : List Host.Cell)
  deriving DecidableEq, Repr

/-- `ARITH_DEST` and `LOGIC_DEST` (decisions D8, D10): the register field whose register receives a two-register result. -/
inductive ResultDest where
  | sField
  | dField
  deriving DecidableEq, Repr

/-- `SUB_ORDER` (decision D9). -/
inductive SubOrder where
  | sMinusD
  | dMinusS
  deriving DecidableEq, Repr

/-- `MOV_DIR` (decision D11). -/
inductive MovDir where
  | sToD
  | dToS
  deriving DecidableEq, Repr

/-- `SAME_REG` (R66, decision D12): whether the 28 encodings with S = D execute. -/
inductive SameReg where
  | execute
  | refuse
  deriving DecidableEq, Repr

/-- The instructions that compute or move an 8-bit value into a register or compare two: the only ones a set `Z_WRITERS` can
name (R18; log 8). -/
inductive ResultOp where
  | add | sub | inc | dec | and | or | xor | not | cmp | ldi | ldm | mov
  deriving DecidableEq, Repr

/-- The parameters of R4 that the spec decides. -/
structure Config where
  /-- `XLEN`, decision D1. -/
  xlen : Width
  /-- `PCW`, decision D2. -/
  pcw : Width
  /-- `PC_WRAP`, decision D3. -/
  pcWrap : PcWrap
  /-- `MEM_ORG`, decision D4. -/
  memOrg : MemOrg
  /-- `MEM_SIZE`, decision D5. -/
  memSize : MemSize
  /-- `INSTR_ORDER`, decision D6. -/
  instrOrder : InstrOrder
  /-- `ARITH_DEST`, decision D8. -/
  arithDest : ResultDest
  /-- `SUB_ORDER`, decision D9. -/
  subOrder : SubOrder
  /-- `LOGIC_DEST`, decision D10. -/
  logicDest : ResultDest
  /-- `MOV_DIR`, decision D11. -/
  movDir : MovDir
  /-- `SAME_REG`, decision D12. -/
  sameReg : SameReg
  /-- `Z_WRITERS`, decision D13: the instructions that write the Zero flag. -/
  zWriters : List ResultOp
  /-- `Z_RULE`, decision D14. -/
  zRule : ZRule
  /-- `OUT_SRC`, decision D15: the register whose value OUT displays. -/
  outSrc : Reg
  /-- `HLT_PC`, decision D17, as the distance from the HLT byte (log 10). -/
  hltAdvance : Nat
  /-- `ILLEGAL_POLICY`, decisions D18 and D19. -/
  illegalPolicy : IllegalPolicy
  /-- `RESET_PC`, decision D20. -/
  resetPc : Byte
  deriving DecidableEq, Repr

end Sys2Proof
end

