-- ==== Sys2Proof/Machine/Params.lean ====
section
/-! DEFINITION. Sys2Proof/Machine/Params.lean: the value each parameter of spec/00_scope.md R4 takes on the 8 Bit Computer. Each is the
spec's own decision (spec/92_eei_decisions.md); log 7. -/

namespace Sys2Proof.Machine

/-- `Z_WRITERS` (R18, decision D13): the nine instructions that write the Zero flag. -/
def standardZWriters : List ResultOp := [.add, .sub, .inc, .dec, .and, .or, .xor, .not, .cmp]

/-- The standard parameters (R4, column "value"). -/
def params : Config where
  xlen := .bits8
  pcw := .bits8
  pcWrap := .wrap
  memOrg := .unified
  memSize := .bytes256
  instrOrder := .opcodeFirst
  arithDest := .sField
  subOrder := .sMinusD
  logicDest := .sField
  movDir := .sToD
  sameReg := .execute
  zWriters := standardZWriters
  zRule := .setIfZero
  outSrc := .A
  hltAdvance := 1
  illegalPolicy := .fault
  resetPc := 0x00

end Sys2Proof.Machine
end

