-- ==== Sys2Proof/Machine/State.lean ====
section
/-! DEFINITION. Sys2Proof/Machine/State.lean: the state record of spec/10_state.md R26, the reasons a step can stop, and the state after
reset (R25, R160). -/

namespace Sys2Proof.Machine

/-- The register file (R10, R11): A, B, C, D. -/
structure Regs where
  a : Byte
  b : Byte
  c : Byte
  d : Byte
  deriving DecidableEq, Repr

/-- The whole state of the machine (R26). -/
structure State where
  /-- The general registers (R10). -/
  x : Regs
  /-- The program counter: the address of the first byte of the instruction being executed (R14). -/
  pc : Byte
  /-- The Zero flag (R17). -/
  z : Bool
  /-- The halted latch (R20). -/
  halted : Bool
  /-- The display latch: the value the display shows (R21). -/
  out : Byte
  /-- The display trace: every value shown since reset, oldest first (R21). -/
  outs : List Byte
  /-- The memory (R22). -/
  mem : Memory
  deriving DecidableEq, Repr

/-- The model faults of spec/60_exceptions.md R143. None is an architectural trap: the run stops, nothing is saved and no state changes
(R141, R149). -/
inductive Fault where
  /-- Raised by the fetch of any step when the byte `b` at `a = pc` spells no instruction (R63, R141). Safe: the machine stops where the
  hardware may do anything. -/
  | illegalInstruction (a b : Byte)
  /-- Raised by a fetch and by LDM when nothing has written the byte at address `a` (R142, U3). Safe: the machine stops where the
  hardware reads some byte the spec leaves open (log 4). A read of a register or of the flag that nothing has written does not raise it; it
gives the value held (DESIGN CHOICE, log 1 and log 2; U1 and U2 recommend the fault). -/
  | unspecifiedRead (a : Byte)
  /-- Raised, under `PC_WRAP = fault` only, by the operand fetch and by the final advance of the instruction at `a` when the program
  counter would pass 0xFF (R143, U6). Never raised by the standard machine, which wraps. Safe. -/
  | pcOverflow (a : Byte)
  deriving DecidableEq, Repr

/-- Why a step has no meaning. -/
inductive Refusal where
  /-- An instruction the model has no meaning for yet; no instruction of this model is in that case. Safe. -/
  | notModelled (mnemonic : String)
  /-- Answered by `step` in the halted state, in which "the processor has no step" (R20, R82, R152). Safe: the run has ended (log 5). -/
  | halted
  /-- Answered, under `SAME_REG = refuse` only, for one of the 28 forms with `r` in both register fields (R66, U5). Never answered by the
  standard machine, which executes them. Safe. -/
  | sameRegister (r : Reg)
  deriving DecidableEq, Repr

/-- The state after reset (R25, R160) under a configuration (`RESET_PC`), for the values the spec leaves OPEN: the registers, the Zero flag,
the display latch and the host's image, in which the first pair for an address gives its byte (log 6). A claim the spec vouches for holds
for every value of these arguments (R24, U1, U2, U7, U11), but none that leans on two reads of one such value agreeing (log 15). -/
def State.resetIn (c : Config) (regs : Regs) (z : Bool) (out : Byte) (image : List (Byte × Byte)) : State where
  x := regs
  pc := c.resetPc
  z := z
  halted := false
  out := out
  outs := []
  mem := Memory.ofImage image

/-- The state after reset of the standard machine. -/
def State.resetOf (regs : Regs) (z : Bool) (out : Byte) (image : List (Byte × Byte)) : State := State.resetIn params regs z out image

/-- The machine right after reset: the reset state with no image, and zero for the registers, the Zero flag and the display latch, to
which the spec gives no reset value (DESIGN CHOICE, log 1 to 3). -/
def State.reset : State := State.resetOf ⟨0, 0, 0, 0⟩ false 0 []

end Sys2Proof.Machine
end

