-- ==== Sys2Proof/Machine/Ops.lean ====
section
/-! DEFINITION. Sys2Proof/Machine/Ops.lean: the named operations of the pseudocode (spec/00_scope.md R6) that the meanings share.
Taking an exception: the machine has none. No instruction raises one, there is no trap entry, no saved state, no handler, no mode and
no return from a trap (spec/60_exceptions.md R140, R149, R150). The one `raise` there is, a model fault of R143, is `raise`: the run stops,
and the state it leaves is the state before the instruction. -/

namespace Sys2Proof.Machine

/-- Go on with the value of a part of a step, or stop for the reason that part stopped for. -/
def andThen {α β : Type} (o : Host.Outcome α Fault Refusal) (k : α → Host.Outcome β Fault Refusal) : Host.Outcome β Fault Refusal :=
  match o with
  | .next v => k v
  | .fault f => .fault f
  | .refused r => .refused r

/-- `raise` (R6, R141): stop the run with a model fault. No state is written. -/
def raise {α : Type} (f : Fault) : Host.Outcome α Fault Refusal := .fault f

/-- `x[i]` (R6): the value of a register. -/
def State.rd (s : State) : Reg → Byte
  | .A => s.x.a
  | .B => s.x.b
  | .C => s.x.c
  | .D => s.x.d

/-- `x[i] <- v` (R6). No register is hard-wired and every write takes effect (R12). -/
def State.wr (s : State) (r : Reg) (v : Byte) : State :=
  match r with
  | .A => { s with x := { s.x with a := v } }
  | .B => { s with x := { s.x with b := v } }
  | .C => { s with x := { s.x with c := v } }
  | .D => { s with x := { s.x with d := v } }

/-- An integer result narrowed to a register or to the program counter: modulo 256 (R6, R15, R94; `XLEN`, `PCW`). -/
def narrow (w : Width) (n : Int) : Byte :=
  match w with
  | .bits8 => BitVec.ofInt 8 n

/-- How many values a width has. -/
def valuesOf (w : Width) : Nat :=
  match w with
  | .bits8 => 256

/-- `next(n)` (R6, R15): the address `n` bytes after `pc`, modulo 256. -/
def nextAddr (pc : Byte) (n : Nat) : Byte := pc + BitVec.ofNat 8 n

/-- The address `n` bytes after the one of the instruction, `next(n)` under `PC_WRAP = wrap`, or the fault `PcOverflow` where the configuration asks for it (R15, R45, R143). -/
def stepAddr (c : Config) (pc : Byte) (n : Nat) : Host.Outcome Byte Fault Refusal :=
  match c.pcWrap with
  | .wrap => .next (narrow c.pcw (pc.toNat + n))
  | .fault => if valuesOf c.pcw ≤ pc.toNat + n then raise (.pcOverflow pc) else .next (narrow c.pcw (pc.toNat + n))

/-- `pc <- t` (R6). -/
def jumpTo (s : State) (t : Byte) : State := { s with pc := t }

/-- `pc <- next(n)`, the end of every instruction but a taken jump (R15). -/
def advance (c : Config) (n : Nat) (s : State) : Host.Outcome State Fault Refusal :=
  andThen (stepAddr c s.pc n) fun t => .next (jumpTo s t)

/-- `Display(v)` (R6, R21): show `v` and append it to the trace. -/
def State.display (s : State) (v : Byte) : State := { s with out := v, outs := s.outs ++ [v] }

/-- `halted <- 1` (R82). -/
def State.halt (s : State) : State := { s with halted := true }

/-- A byte read from a store, or the fault `UnspecifiedRead` where nothing has written it (R36, R142; log 4). -/
def readByte (m : Memory) (a : Byte) : Host.Outcome Byte Fault Refusal :=
  match m.read a with
  | some v => .next v
  | none => raise (.unspecifiedRead a)

/-- The byte an address names: with 256 bytes implemented each address names its own (R30, R33; `MEM_SIZE`). -/
def cellOf (m : MemSize) (a : Byte) : Byte :=
  match m with
  | .bytes256 => a

/-- The data read of LDM (R31, R36). -/
def loadByte (c : Config) (s : State) (a : Byte) : Host.Outcome Byte Fault Refusal := readByte s.mem (cellOf c.memSize a)

/-- The data write of SAV (R31, R37): it never faults and is never ignored. -/
def State.storeByte (s : State) (c : Config) (a v : Byte) : State := { s with mem := s.mem.write (cellOf c.memSize a) v }

/-- The read of an instruction byte (R31): from the one memory, or from the program store under `MEM_ORG = split` (R32). -/
def fetchByte (c : Config) (s : State) (a : Byte) : Host.Outcome Byte Fault Refusal :=
  match c.memOrg with
  | .unified => readByte s.mem (cellOf c.memSize a)
  | .split program => readByte program (cellOf c.memSize a)

end Sys2Proof.Machine
end

