-- ==== Sys2Proof/Machine/Flags.lean ====
section
/-! DEFINITION. Sys2Proof/Machine/Flags.lean: the machine's one flag (spec/10_state.md R17 to R19): which value an 8-bit result gives it and
which instructions write it. -/

namespace Sys2Proof.Machine

/-- The value a result gives the Zero flag: set exactly when all eight bits are zero (R18, R95; `Z_RULE`, decision D14). -/
def zeroFlag (rule : ZRule) (r : Byte) : Bool :=
  match rule with
  | .setIfZero => decide (r = 0)

/-- The instruction is one of `Z_WRITERS` (R18). -/
def writesZ (c : Config) (op : ResultOp) : Bool := decide (op ∈ c.zWriters)

/-- `Z <- (r = 0) ? 1 : 0` for a member of `Z_WRITERS`, nothing for another instruction (R18). -/
def setZ (c : Config) (op : ResultOp) (r : Byte) (s : State) : State :=
  if writesZ c op then { s with z := zeroFlag c.zRule r } else s

/-- The end of an instruction that writes a result to a register: the register, the flag, the program counter (the last three lines of
the pseudocode of R90 to R93, R101, R102, R120 and R125 to R128). -/
def finish (c : Config) (op : ResultOp) (dest : Reg) (r : Byte) (s : State) (n : Nat) : Host.Outcome State Fault Refusal :=
  advance c n (setZ c op r (s.wr dest r))

/-- The end of an instruction that only records a result in the flag (R135). -/
def finishFlag (c : Config) (op : ResultOp) (r : Byte) (s : State) (n : Nat) : Host.Outcome State Fault Refusal :=
  advance c n (setZ c op r s)

end Sys2Proof.Machine
end

