-- ==== Sys2Proof/Machine/Operands.lean ====
section
/-! DEFINITION. Sys2Proof/Machine/Operands.lean: the operand forms of the instructions: which register receives a result, which are read,
and what the operand byte is (spec/30_encoding.md R58, R59, R68; spec/42_load_store.md R100; spec/43_jumps.md R113). -/

namespace Sys2Proof.Machine

/-- The register that receives the result of a two-register operation (R68; `ARITH_DEST`, `LOGIC_DEST`). -/
def resultReg (dest : ResultDest) (rs rd : Reg) : Reg :=
  match dest with
  | .sField => rs
  | .dField => rd

/-- The exact sum of two registers' values, before it is narrowed (R90, R94). -/
def exactSum (v w : Byte) : Int := v.toNat + w.toNat

/-- The exact difference of the values of S and D, before it is narrowed (R91, R94, R135; `SUB_ORDER`). -/
def exactDifference (order : SubOrder) (vs vd : Byte) : Int :=
  match order with
  | .sMinusD => vs.toNat - vd.toNat
  | .dMinusS => vd.toNat - vs.toNat

/-- The register MOV reads (R120; `MOV_DIR`). -/
def movSource (dir : MovDir) (rs rd : Reg) : Reg :=
  match dir with
  | .sToD => rs
  | .dToS => rd

/-- The register MOV writes (R120; `MOV_DIR`). -/
def movDest (dir : MovDir) (rs rd : Reg) : Reg :=
  match dir with
  | .sToD => rd
  | .dToS => rs

/-- The value LDI loads: the operand byte, whole (R59, R101). -/
def immediate (vv : Byte) : Byte := vv

/-- The address LDM reads and SAV writes: the operand byte, absolute (R59, R100). -/
def effectiveAddress (aa : Byte) : Byte := aa

/-- The address a taken jump goes to: the operand byte, absolute (R59, R113). -/
def jumpTarget (aa : Byte) : Byte := aa

end Sys2Proof.Machine
end

