-- ==== Sys2Proof/Machine/Arithmetic.lean ====
section
/-! DEFINITION. Sys2Proof/Machine/Arithmetic.lean: ADD, SUB, INC and DEC (spec/41_arithmetic.md R90 to R96). The exact result is narrowed
modulo 256 and the carry or borrow is lost (R94). Both operands are read before the result is written, also when S = D (R90, D12). -/

namespace Sys2Proof.Machine

/-- ADD under a configuration (R90, `ARITH_DEST`). DESIGN CHOICE (log 15): ADD R R is even also when nothing has written R (U1). -/
def execAddIn (c : Config) (rs rd : Reg) (s : State) : Host.Outcome State Fault Refusal :=
  finish c .add (resultReg c.arithDest rs rd) (narrow c.xlen (exactSum (s.rd rs) (s.rd rd))) s 1

/-- ADD S D (R90): `x[S] <- x[S] + x[D]`. -/
def execAdd (rs rd : Reg) (s : State) : Host.Outcome State Fault Refusal := execAddIn params rs rd s

/-- SUB under a configuration (R91, `ARITH_DEST`, `SUB_ORDER`). DESIGN CHOICE (log 15): SUB R R gives 0x00 and sets the flag also when no
instruction has written R since reset, where R91 and U1 leave the result and the flag unspecified. -/
def execSubIn (c : Config) (rs rd : Reg) (s : State) : Host.Outcome State Fault Refusal :=
  finish c .sub (resultReg c.arithDest rs rd) (narrow c.xlen (exactDifference c.subOrder (s.rd rs) (s.rd rd))) s 1

/-- SUB S D (R91): `x[S] <- x[S] - x[D]`. -/
def execSub (rs rd : Reg) (s : State) : Host.Outcome State Fault Refusal := execSubIn params rs rd s

/-- INC under a configuration (R92). DESIGN CHOICE (log 15): INC and then DEC restore a register nothing has written too (R92, R93, U1). -/
def execIncIn (c : Config) (r : Reg) (s : State) : Host.Outcome State Fault Refusal :=
  finish c .inc r (narrow c.xlen ((s.rd r).toNat + 1)) s 1

/-- INC R (R92). -/
def execInc (r : Reg) (s : State) : Host.Outcome State Fault Refusal := execIncIn params r s

/-- DEC under a configuration (R93). DESIGN CHOICE (log 15): as for INC. -/
def execDecIn (c : Config) (r : Reg) (s : State) : Host.Outcome State Fault Refusal :=
  finish c .dec r (narrow c.xlen ((s.rd r).toNat - 1)) s 1

/-- DEC R (R93). -/
def execDec (r : Reg) (s : State) : Host.Outcome State Fault Refusal := execDecIn params r s

end Sys2Proof.Machine
end

