-- ==== Sys2Proof/Machine/Compare.lean ====
section
/-! DEFINITION. Sys2Proof/Machine/Compare.lean: CMP (spec/46_compare.md R135). -/

namespace Sys2Proof.Machine

/-- CMP under a configuration (R135): the difference is discarded, only the flag is written. DESIGN CHOICE (log 15):
CMP R R sets the flag also when no instruction has written R since reset, where U1 leaves it unspecified. -/
def execCmpIn (c : Config) (rs rd : Reg) (s : State) : Host.Outcome State Fault Refusal :=
  finishFlag c .cmp (narrow c.xlen (exactDifference .sMinusD (s.rd rs) (s.rd rd))) s 1

/-- CMP S D (R135): `Z <- (x[S] = x[D])`. -/
def execCmp (rs rd : Reg) (s : State) : Host.Outcome State Fault Refusal := execCmpIn params rs rd s

end Sys2Proof.Machine
end

