-- ==== Sys2Proof/Machine/Jumps.lean ====
section
/-! DEFINITION. Sys2Proof/Machine/Jumps.lean: JMP, JMZ and JNZ (spec/43_jumps.md R110 to R114), the machine's only control transfers. -/

namespace Sys2Proof.Machine

/-- `if taken then pc <- b1 else pc <- next(2)` (R111, R112). -/
def branch (c : Config) (taken : Bool) (aa : Byte) (s : State) : Host.Outcome State Fault Refusal :=
  if taken then .next (jumpTo s (jumpTarget aa)) else advance c 2 s

/-- JMP AA (R110); no parameter bears on it. -/
def execJmp (aa : Byte) (s : State) : Host.Outcome State Fault Refusal := .next (jumpTo s (jumpTarget aa))

/-- JMZ under a configuration (R111). DESIGN CHOICE (log 2): on a flag nothing has written since reset it follows the bit the flag holds, where
R114 and U2 leave the direction unspecified. -/
def execJmzIn (c : Config) (aa : Byte) (s : State) : Host.Outcome State Fault Refusal := branch c s.z aa s

/-- JMZ AA (R111): jump if the Zero flag is set. -/
def execJmz (aa : Byte) (s : State) : Host.Outcome State Fault Refusal := execJmzIn params aa s

/-- JNZ under a configuration (R112). DESIGN CHOICE (log 2): on a flag nothing has written, as for JMZ. -/
def execJnzIn (c : Config) (aa : Byte) (s : State) : Host.Outcome State Fault Refusal := branch c (!s.z) aa s

/-- JNZ AA (R112): jump if the Zero flag is not set. -/
def execJnz (aa : Byte) (s : State) : Host.Outcome State Fault Refusal := execJnzIn params aa s

end Sys2Proof.Machine
end

