-- ==== Sys2Proof/Machine/LoadStore.lean ====
section
/-! DEFINITION. Sys2Proof/Machine/LoadStore.lean: LDI, LDM and SAV (spec/42_load_store.md R100 to R103). -/

namespace Sys2Proof.Machine

/-- LDI under a configuration (R101). -/
def execLdiIn (c : Config) (r : Reg) (vv : Byte) (s : State) : Host.Outcome State Fault Refusal :=
  finish c .ldi r (immediate vv) s 2

/-- LDI R VV (R101): the operand byte goes to the register. -/
def execLdi (r : Reg) (vv : Byte) (s : State) : Host.Outcome State Fault Refusal := execLdiIn params r vv s

/-- LDM under a configuration (R102). -/
def execLdmIn (c : Config) (r : Reg) (aa : Byte) (s : State) : Host.Outcome State Fault Refusal :=
  andThen (loadByte c s (effectiveAddress aa)) fun v => finish c .ldm r v s 2

/-- LDM R AA (R102): the byte at the address goes to the register; a byte nothing has written is an unspecified read (U3, log 4). -/
def execLdm (r : Reg) (aa : Byte) (s : State) : Host.Outcome State Fault Refusal := execLdmIn params r aa s

/-- SAV under a configuration (R103). DESIGN CHOICE (log 15): the byte stored from a register nothing has written since reset is a written byte
equal to the register, so a later LDM or fetch of it goes on, where R103 and U1 leave the byte unspecified. -/
def execSavIn (c : Config) (r : Reg) (aa : Byte) (s : State) : Host.Outcome State Fault Refusal :=
  advance c 2 (s.storeByte c (effectiveAddress aa) (s.rd r))

/-- SAV R AA (R103): the register goes to the byte at the address. -/
def execSav (r : Reg) (aa : Byte) (s : State) : Host.Outcome State Fault Refusal := execSavIn params r aa s

end Sys2Proof.Machine
end

