-- ==== Sys2Proof/Machine/Logic.lean ====
section
/-! DEFINITION. Sys2Proof/Machine/Logic.lean: AND, OR, XOR and NOT, bit by bit on all eight bits (spec/45_logic.md R125 to R129). -/

namespace Sys2Proof.Machine

/-- AND under a configuration (R125, `LOGIC_DEST`). DESIGN CHOICE (log 15): AND with 0x00 gives 0x00 also when nothing has written the other
register since reset, where R125 and U1 leave the result and the flag unspecified. -/
def execAndIn (c : Config) (rs rd : Reg) (s : State) : Host.Outcome State Fault Refusal :=
  finish c .and (resultReg c.logicDest rs rd) (s.rd rs &&& s.rd rd) s 1

/-- AND S D (R125). -/
def execAnd (rs rd : Reg) (s : State) : Host.Outcome State Fault Refusal := execAndIn params rs rd s

/-- OR under a configuration (R126, `LOGIC_DEST`). DESIGN CHOICE (log 15): OR with 0xFF gives 0xFF also when nothing has written the other
register since reset, where R126 and U1 leave the result and the flag unspecified. -/
def execOrIn (c : Config) (rs rd : Reg) (s : State) : Host.Outcome State Fault Refusal :=
  finish c .or (resultReg c.logicDest rs rd) (s.rd rs ||| s.rd rd) s 1

/-- OR S D (R126). -/
def execOr (rs rd : Reg) (s : State) : Host.Outcome State Fault Refusal := execOrIn params rs rd s

/-- XOR under a configuration (R127, `LOGIC_DEST`). DESIGN CHOICE (log 15): XOR R R gives 0x00 and sets the flag also when no instruction has
written R since reset, where R127 and U1 leave the result and the flag unspecified. -/
def execXorIn (c : Config) (rs rd : Reg) (s : State) : Host.Outcome State Fault Refusal :=
  finish c .xor (resultReg c.logicDest rs rd) (s.rd rs ^^^ s.rd rd) s 1

/-- XOR S D (R127). -/
def execXor (rs rd : Reg) (s : State) : Host.Outcome State Fault Refusal := execXorIn params rs rd s

/-- NOT under a configuration (R128). DESIGN CHOICE (log 15): of a register nothing has written since reset the result is 255 minus the value it
holds, where R128 and U1 leave the result and the flag unspecified. -/
def execNotIn (c : Config) (r : Reg) (s : State) : Host.Outcome State Fault Refusal := finish c .not r (~~~(s.rd r)) s 1

/-- NOT R (R128): the one's complement, not an exclusive OR (90_conflicts.md C2). -/
def execNot (r : Reg) (s : State) : Host.Outcome State Fault Refusal := execNotIn params r s

end Sys2Proof.Machine
end

