-- ==== Sys2Proof/Machine/Move.lean ====
section
/-! DEFINITION. Sys2Proof/Machine/Move.lean: MOV (spec/44_move.md R120). -/

namespace Sys2Proof.Machine

/-- MOV under a configuration (R120, `MOV_DIR`). DESIGN CHOICE (log 15): a copy of a register nothing has written since reset equals it, where
R120 and U1 say only that it is unspecified. -/
def execMovIn (c : Config) (rs rd : Reg) (s : State) : Host.Outcome State Fault Refusal :=
  finish c .mov (movDest c.movDir rs rd) (s.rd (movSource c.movDir rs rd)) s 1

/-- MOV S D (R120): `x[D] <- x[S]`. -/
def execMov (rs rd : Reg) (s : State) : Host.Outcome State Fault Refusal := execMovIn params rs rd s

end Sys2Proof.Machine
end

