-- ==== Sys2Proof/Machine/System.lean ====
section
/-! DEFINITION. Sys2Proof/Machine/System.lean: NOP, OUT and HLT (spec/40_nop_out_hlt.md R80 to R82). Each instruction is given under any
configuration (`…In`) and, as the arm of `exec`, under the standard parameters. -/

namespace Sys2Proof.Machine

/-- NOP under a configuration (R80). -/
def execNopIn (c : Config) (s : State) : Host.Outcome State Fault Refusal := advance c 1 s

/-- NOP (R80): only the program counter changes. -/
def execNop (s : State) : Host.Outcome State Fault Refusal := execNopIn params s

/-- OUT under a configuration (R81, `OUT_SRC`). DESIGN CHOICE (log 15): the value displayed from a register nothing has written since reset is
the one the register holds, where R81 and U1 leave it unspecified. -/
def execOutIn (c : Config) (s : State) : Host.Outcome State Fault Refusal := advance c 1 (s.display (s.rd c.outSrc))

/-- OUT (R81): display the value of register A. -/
def execOut (s : State) : Host.Outcome State Fault Refusal := execOutIn params s

/-- HLT under a configuration (R82, `HLT_PC`). -/
def execHltIn (c : Config) (s : State) : Host.Outcome State Fault Refusal := advance c c.hltAdvance s.halt

/-- HLT (R82): set the halted latch. -/
def execHlt (s : State) : Host.Outcome State Fault Refusal := execHltIn params s

end Sys2Proof.Machine
end

