-- ==== Sys2Proof/Syntax.lean ====
section
/-! DEFINITION. Sys2Proof/Syntax.lean: the 19 instructions of spec/00_scope.md R2, one constructor per row of
spec/opcode_table.json, in the table's order. `rs` is the register of the S field (bits 7:6, written first), `rd` the one of the D field
(bits 5:4, written second), `r` the one of the R field; `vv` is an immediate byte and `aa` an absolute address (R9, R59). -/

namespace Sys2Proof

/-- An instruction with its operands. -/
inductive Instr where
  | nop
  | out
  | hlt
  | add (rs rd : Reg)
  | sub (rs rd : Reg)
  | inc (r : Reg)
  | dec (r : Reg)
  | ldi (r : Reg) (vv : Byte)
  | ldm (r : Reg) (aa : Byte)
  | sav (r : Reg) (aa : Byte)
  | jmp (aa : Byte)
  | jmz (aa : Byte)
  | jnz (aa : Byte)
  | mov (rs rd : Reg)
  | and (rs rd : Reg)
  | or (rs rd : Reg)
  | xor (rs rd : Reg)
  | not (r : Reg)
  | cmp (rs rd : Reg)
  deriving DecidableEq, Repr

/-- The length in bytes (R64): two for LDI, LDM, SAV, JMP, JMZ and JNZ, one for the rest. -/
def Instr.length : Instr → Nat
  | .nop | .out | .hlt => 1
  | .add _ _ | .sub _ _ | .inc _ | .dec _ => 1
  | .ldi _ _ | .ldm _ _ | .sav _ _ => 2
  | .jmp _ | .jmz _ | .jnz _ => 2
  | .mov _ _ | .and _ _ | .or _ _ | .xor _ _ | .not _ | .cmp _ _ => 1

/-- The two register fields of a two-register instruction (shape `RR`, R53), none for the other shapes. -/
def Instr.registerPair : Instr → Option (Reg × Reg)
  | .add rs rd | .sub rs rd | .mov rs rd | .and rs rd | .or rs rd | .xor rs rd | .cmp rs rd => some (rs, rd)
  | .nop | .out | .hlt | .inc _ | .dec _ | .ldi _ _ | .ldm _ _ | .sav _ _ => none
  | .jmp _ | .jmz _ | .jnz _ | .not _ => none

end Sys2Proof
end

