-- ==== Sys2Proof/Machine/Dispatch.lean ====
section
/-! DEFINITION. Sys2Proof/Machine/Dispatch.lean: one arm per constructor of Instr, the case of spec/70_reset_and_hazards.md R166. -/

namespace Sys2Proof.Machine

-- The effect of one instruction in a state whose program counter is the address of its first byte (R14, R166).
def exec (i : Instr) (s : State) : Host.Outcome State Fault Refusal :=
  match i with
  | .nop => Sys2Proof.Machine.execNop s
  | .out => Sys2Proof.Machine.execOut s
  | .hlt => Sys2Proof.Machine.execHlt s
  | .add rs rd => Sys2Proof.Machine.execAdd rs rd s
  | .sub rs rd => Sys2Proof.Machine.execSub rs rd s
  | .inc r => Sys2Proof.Machine.execInc r s
  | .dec r => Sys2Proof.Machine.execDec r s
  | .ldi r vv => Sys2Proof.Machine.execLdi r vv s
  | .ldm r aa => Sys2Proof.Machine.execLdm r aa s
  | .sav r aa => Sys2Proof.Machine.execSav r aa s
  | .jmp aa => Sys2Proof.Machine.execJmp aa s
  | .jmz aa => Sys2Proof.Machine.execJmz aa s
  | .jnz aa => Sys2Proof.Machine.execJnz aa s
  | .mov rs rd => Sys2Proof.Machine.execMov rs rd s
  | .and rs rd => Sys2Proof.Machine.execAnd rs rd s
  | .or rs rd => Sys2Proof.Machine.execOr rs rd s
  | .xor rs rd => Sys2Proof.Machine.execXor rs rd s
  | .not r => Sys2Proof.Machine.execNot r s
  | .cmp rs rd => Sys2Proof.Machine.execCmp rs rd s

end Sys2Proof.Machine
end

