-- ==== Sys2Proof/Decode.lean ====
section
/-! DEFINITION. Sys2Proof/Decode.lean: the decoder of spec/30_encoding.md R61, total on any bytes and rejecting by name, and after it the
encoder of R70. Bit 7 of a byte is the leftmost bit of the source's written patterns (R5; log 11). -/

namespace Sys2Proof

/-- `b0[7:6]`, the first register field (R50). -/
def hiField (b : Byte) : BitVec 2 := b.extractLsb' 6 2

/-- `b0[5:4]`, the second register field or the type field (R50). -/
def midField (b : Byte) : BitVec 2 := b.extractLsb' 4 2

/-- `b0[3:0]`, the opcode nibble (R50). -/
def opNibble (b : Byte) : BitVec 4 := b.extractLsb' 0 4

/-- The register a 2-bit field names (R58: "0 = A, 1 = B, 2 = C, 3 = D"). -/
def regOfField (f : BitVec 2) : Reg :=
  match f.toNat with
  | 0 => .A
  | 1 => .B
  | 2 => .C
  | _ => .D

/-- An instruction whose first byte is known and whose operand byte is not (shapes `RTB` and `JB`, R55, R56). -/
inductive OperandOp where
  | ldi (r : Reg)
  | ldm (r : Reg)
  | sav (r : Reg)
  | jmp
  | jmz
  | jnz
  deriving DecidableEq, Repr

/-- The instruction once its operand byte `b1` is known; the byte is used whole and as it stands (R59). -/
def OperandOp.withOperand (o : OperandOp) (b1 : Byte) : Instr :=
  match o with
  | .ldi r => .ldi r b1
  | .ldm r => .ldm r b1
  | .sav r => .sav r b1
  | .jmp => .jmp b1
  | .jmz => .jmz b1
  | .jnz => .jnz b1

/-- What a first byte says (R61, R64). -/
inductive FirstByte where
  /-- One of the 114 bytes that spell no instruction (R62). -/
  | illegal
  /-- A whole one-byte instruction. -/
  | whole (i : Instr)
  /-- A two-byte instruction; its operand byte comes next. -/
  | opens (o : OperandOp)
  deriving DecidableEq, Repr

/-- `decode(b0)` of R61. The decode is full: every bit of the byte takes part, and no arm for an unassigned byte returns an
instruction. -/
def decodeFirst (b0 : Byte) : FirstByte :=
  let hi := hiField b0
  let mid := midField b0
  let s := regOfField hi
  let d := regOfField mid
  match (opNibble b0).toNat with
  | 0x0 =>
    if hi = 0 then
      if mid = 0 then .whole .nop
      else if mid = 1 then .whole .out
      else if mid = 2 then .whole .hlt
      else .illegal
    else .illegal
  | 0x1 => .whole (.add s d)
  | 0x2 => .whole (.sub s d)
  | 0x3 =>
    if mid = 2 then .whole (.inc s)
    else if mid = 3 then .whole (.dec s)
    else .illegal
  | 0x4 =>
    if mid = 0 then .opens (.ldi s)
    else if mid = 1 then .opens (.ldm s)
    else if mid = 2 then .opens (.sav s)
    else .illegal
  | 0x5 =>
    if hi = 0 then
      if mid = 0 then .opens .jmp
      else if mid = 1 then .opens .jmz
      else if mid = 2 then .opens .jnz
      else .illegal
    else .illegal
  | 0x6 => .whole (.mov s d)
  | 0x7 => .whole (.and s d)
  | 0x8 => .whole (.or s d)
  | 0x9 => .whole (.xor s d)
  | 0xA => if mid = 0 then .whole (.not s) else .illegal
  | 0xB => .whole (.cmp s d)
  | _ => .illegal

/-- The answer of the decoder on a list of bytes. -/
inductive Decoded where
  /-- An instruction, and the bytes after it. -/
  | instr (i : Instr) (rest : List Byte)
  /-- The first byte spells no instruction (R62). -/
  | illegal (b0 : Byte)
  /-- The first byte opens a two-byte instruction and no operand byte follows. -/
  | noOperand (b0 : Byte)
  /-- There is no byte at all. -/
  | noByte
  deriving DecidableEq, Repr

/-- Decode the instruction a list of bytes begins with; the first byte is the one at the lower address (R34). A reserved first byte is
rejected before any second byte is looked at (R51). -/
def decode : List Byte → Decoded
  | [] => .noByte
  | b0 :: rest =>
    match decodeFirst b0 with
    | .illegal => .illegal b0
    | .whole i => .instr i rest
    | .opens o =>
      match rest with
      | [] => .noOperand b0
      | b1 :: rest' => .instr (o.withOperand b1) rest'

/-- The two bytes an instruction whose bits are `w` occupies in memory, first byte first: bit 0 of `w` is the least significant bit of
the first byte, the second byte is bits 15..8, and every bit from `nbits` on is 0. -/
def tableBytes (nbits w : Nat) : Byte × Byte :=
  let v := w % 2 ^ nbits
  (BitVec.ofNat 8 v, BitVec.ofNat 8 (v / 256))

/-- The instruction the decoder reads from an instruction whose bits are `w`, numbered as spec/opcode_table.json numbers them. -/
def decodeTableWord (nbits w : Nat) : Option Instr :=
  let b := tableBytes nbits w
  match decode [b.1, b.2] with
  | .instr i _ => some i
  | .illegal _ => none
  | .noOperand _ => none
  | .noByte => none

/-! The encoder (R70), written from the assembler's map and not from the decoder. -/

/-- The number of a register (R10). -/
def regNumber : Reg → Nat
  | .A => 0
  | .B => 1
  | .C => 2
  | .D => 3

/-- `64*s + 16*d + n` (R53, R70). -/
def pairByte (rs rd : Reg) (n : Nat) : Byte := BitVec.ofNat 8 (64 * regNumber rs + 16 * regNumber rd + n)

/-- `64*r + n` (R54, R55, R57, R70). -/
def regByte (r : Reg) (n : Nat) : Byte := BitVec.ofNat 8 (64 * regNumber r + n)

/-- The bytes of an instruction (R70), first byte first. -/
def encode : Instr → List Byte
  | .nop => [0x00]
  | .out => [0x10]
  | .hlt => [0x20]
  | .add rs rd => [pairByte rs rd 0x01]
  | .sub rs rd => [pairByte rs rd 0x02]
  | .inc r => [regByte r 0x23]
  | .dec r => [regByte r 0x33]
  | .ldi r vv => [regByte r 0x04, vv]
  | .ldm r aa => [regByte r 0x14, aa]
  | .sav r aa => [regByte r 0x24, aa]
  | .jmp aa => [0x05, aa]
  | .jmz aa => [0x15, aa]
  | .jnz aa => [0x25, aa]
  | .mov rs rd => [pairByte rs rd 0x06]
  | .and rs rd => [pairByte rs rd 0x07]
  | .or rs rd => [pairByte rs rd 0x08]
  | .xor rs rd => [pairByte rs rd 0x09]
  | .not r => [regByte r 0x0A]
  | .cmp rs rd => [pairByte rs rd 0x0B]

/-- The 28 encodings with one register in both fields (U5), listed as R66 asks: "forms that nothing in the source shows". The standard
machine executes them (decision D12); under `SAME_REG = refuse` they are refused (log 16). -/
def sameRegisterForms : List Byte :=
  [0x01, 0x51, 0xA1, 0xF1] ++  -- ADD
  [0x02, 0x52, 0xA2, 0xF2] ++  -- SUB
  [0x06, 0x56, 0xA6, 0xF6] ++  -- MOV
  [0x07, 0x57, 0xA7, 0xF7] ++  -- AND
  [0x08, 0x58, 0xA8, 0xF8] ++  -- OR
  [0x09, 0x59, 0xA9, 0xF9] ++  -- XOR
  [0x0B, 0x5B, 0xAB, 0xFB]     -- CMP

end Sys2Proof
end

