-- ==== Sys2Proof/WellFormed.lean ====
section
/-! DEFINITION. Sys2Proof/WellFormed.lean: which instruction terms a configuration admits. Registers and operand bytes are typed, so the
one check left is the same-register check of spec/30_encoding.md R66: under `SAME_REG = execute` (the standard value) every term is
well-formed; under `SAME_REG = refuse` a two-register instruction must name two different registers. -/

namespace Sys2Proof

/-- The register a two-register instruction names in both of its fields, if it does (one of the 28 forms of R66). -/
def Instr.sameRegister (i : Instr) : Option Reg :=
  match i.registerPair with
  | some (rs, rd) => if rs = rd then some rs else none
  | none => none

/-- The instruction is admitted under the given treatment of the same-register forms (R66, decision D12). -/
def Instr.wellFormed (policy : SameReg) (i : Instr) : Bool :=
  match policy with
  | .execute => true
  | .refuse => i.sameRegister.isNone

end Sys2Proof
end

