-- ==== Sys2Proof/Machine/Fetch.lean ====
section
/-! DEFINITION. Sys2Proof/Machine/Fetch.lean: fetching and decoding the instruction at the program counter (spec/30_encoding.md R51, checks
2 to 4 of spec/60_exceptions.md R147), and placing an instruction's bytes there. -/

namespace Sys2Proof.Machine

/-- Check a decoded instruction: under `SAME_REG = refuse` one of the 28 same-register forms is refused (R66; log 10). -/
def checkForm (c : Config) (i : Instr) : Host.Outcome Instr Fault Refusal :=
  match c.sameReg, i.sameRegister with
  | .refuse, some r => .refused (.sameRegister r)
  | _, _ => .next i

/-- How far after its first byte the operand byte of an instruction lies (R34; `INSTR_ORDER`). -/
def operandOffset (order : InstrOrder) : Nat :=
  match order with
  | .opcodeFirst => 1

/-- What a first byte `b` at `a` that spells no instruction does (R63, R141; `ILLEGAL_POLICY`). -/
def illegalFirstByte (policy : IllegalPolicy) (a b : Byte) : Host.Outcome Instr Fault Refusal :=
  match policy with
  | .fault => raise (.illegalInstruction a b)

/-- The instruction at the program counter (R51). The byte at `pc` is read and decoded first; a reserved byte faults before any second
byte is read (R63, R147); the operand byte comes from `next(1)`, the higher address (R34, R45). -/
def fetch (c : Config) (s : State) : Host.Outcome Instr Fault Refusal :=
  andThen (fetchByte c s s.pc) fun b0 =>
    match decodeFirst b0 with
    | .illegal => illegalFirstByte c.illegalPolicy s.pc b0
    | .whole i => checkForm c i
    | .opens o =>
      andThen (stepAddr c s.pc (operandOffset c.instrOrder)) fun a1 =>
        andThen (fetchByte c s a1) fun b1 => checkForm c (o.withOperand b1)

/-- The state with two bytes stored where the next instruction is fetched from, and running (log 6). -/
def State.place (s : State) (b0 b1 : Byte) : State :=
  { s with mem := (s.mem.write (nextAddr s.pc (operandOffset params.instrOrder)) b1).write s.pc b0, halted := false }

end Sys2Proof.Machine
end

