-- ==== Sys2Proof/Machine/Step.lean ====
section
/-! DEFINITION. Sys2Proof/Machine/Step.lean: one step of the processor (spec/70_reset_and_hazards.md R166). -/

namespace Sys2Proof.Machine

/-- One step (R166, in the order of R147). A halted machine has no step (R20, R152; log 5). -/
def step (s : State) : Host.Outcome State Fault Refusal :=
  if s.halted then .refused .halted else andThen (fetch params s) fun i => exec i s

/-- The state in which the very next step fetches and runs the instruction whose bits are `w` (log 6): its bytes, the second one zero
where the table gives it no bits, at `pc` and `next(1)`, and the machine running. -/
def State.withFetchWord (s : State) (nbits w : Nat) : State :=
  s.place (tableBytes nbits w).1 (tableBytes nbits w).2

end Sys2Proof.Machine
end

