-- ==== Sys2Proof/Machine/Assembly.lean ====
section
/-! DEFINITION. Sys2Proof/Machine/Assembly.lean: the assembler's spelling of an instruction (spec/30_encoding.md R67, R68). The meaning of a
program is attached to its bytes and not to this text (R3); no step uses it. A line is a list of characters: the mnemonic in capital
letters, then its operands, separated by spaces; a register is one of the letters A, B, C, D, a byte is `0x` and two hexadecimal
digits; a comment runs from `;` to the end of the line. There is nothing else (R69). Log 13. -/

namespace Sys2Proof.Machine

/-- The letter of a register. -/
def regLetter : Reg → Char
  | .A => 'A'
  | .B => 'B'
  | .C => 'C'
  | .D => 'D'

/-- The hexadecimal digit of a value below 16. -/
def hexDigit (n : Nat) : Char := if n < 10 then Char.ofNat (48 + n) else Char.ofNat (55 + n)

/-- A byte operand as text: `0xXX`. -/
def printByte (b : Byte) : List Char := ['0', 'x', hexDigit (b.toNat / 16), hexDigit (b.toNat % 16)]

/-- A mnemonic and two register operands. -/
def printPair (m : List Char) (rs rd : Reg) : List Char := m ++ [' ', regLetter rs, ' ', regLetter rd]

/-- A mnemonic and one register operand. -/
def printReg (m : List Char) (r : Reg) : List Char := m ++ [' ', regLetter r]

/-- The assembly line of an instruction (R67). -/
def printLine : Instr → List Char
  | .nop => ['N', 'O', 'P']
  | .out => ['O', 'U', 'T']
  | .hlt => ['H', 'L', 'T']
  | .add rs rd => printPair ['A', 'D', 'D'] rs rd
  | .sub rs rd => printPair ['S', 'U', 'B'] rs rd
  | .inc r => printReg ['I', 'N', 'C'] r
  | .dec r => printReg ['D', 'E', 'C'] r
  | .ldi r vv => printReg ['L', 'D', 'I'] r ++ ' ' :: printByte vv
  | .ldm r aa => printReg ['L', 'D', 'M'] r ++ ' ' :: printByte aa
  | .sav r aa => printReg ['S', 'A', 'V'] r ++ ' ' :: printByte aa
  | .jmp aa => ['J', 'M', 'P', ' '] ++ printByte aa
  | .jmz aa => ['J', 'M', 'Z', ' '] ++ printByte aa
  | .jnz aa => ['J', 'N', 'Z', ' '] ++ printByte aa
  | .mov rs rd => printPair ['M', 'O', 'V'] rs rd
  | .and rs rd => printPair ['A', 'N', 'D'] rs rd
  | .or rs rd => printPair ['O', 'R'] rs rd
  | .xor rs rd => printPair ['X', 'O', 'R'] rs rd
  | .not r => printReg ['N', 'O', 'T'] r
  | .cmp rs rd => printPair ['C', 'M', 'P'] rs rd

/-- The line up to its comment (R67: "A comment starts with `;` and runs to the end of the line"). -/
def withoutComment : List Char → List Char
  | [] => []
  | ch :: rest => if ch = ';' then [] else ch :: withoutComment rest

/-- The words of a line, separated by one or more spaces; `word` is the word read so far. -/
def wordsFrom (word : List Char) : List Char → List (List Char)
  | [] => if word = [] then [] else [word]
  | ch :: rest =>
    if ch = ' ' then (if word = [] then wordsFrom [] rest else word :: wordsFrom [] rest)
    else wordsFrom (word ++ [ch]) rest

/-- A register operand. -/
def parseReg (w : List Char) : Option Reg :=
  if w = ['A'] then some .A
  else if w = ['B'] then some .B
  else if w = ['C'] then some .C
  else if w = ['D'] then some .D
  else none

/-- The value of a hexadecimal digit, in either case. -/
def parseDigit (ch : Char) : Option Nat :=
  let n := ch.toNat
  if 48 ≤ n ∧ n ≤ 57 then some (n - 48)
  else if 65 ≤ n ∧ n ≤ 70 then some (n - 55)
  else if 97 ≤ n ∧ n ≤ 102 then some (n - 87)
  else none

/-- A byte operand. -/
def parseByte (w : List Char) : Option Byte :=
  match w with
  | [z, x, h, l] =>
    if z = '0' ∧ x = 'x' then
      match parseDigit h, parseDigit l with
      | some a, some b => some (BitVec.ofNat 8 (16 * a + b))
      | _, _ => none
    else none
  | _ => none

/-- The two-register instruction of a mnemonic. -/
def pairMnemonic (m : List Char) : Option (Reg → Reg → Instr) :=
  if m = ['A', 'D', 'D'] then some .add
  else if m = ['S', 'U', 'B'] then some .sub
  else if m = ['M', 'O', 'V'] then some .mov
  else if m = ['A', 'N', 'D'] then some .and
  else if m = ['O', 'R'] then some .or
  else if m = ['X', 'O', 'R'] then some .xor
  else if m = ['C', 'M', 'P'] then some .cmp
  else none

/-- The one-register instruction of a mnemonic. -/
def regMnemonic (m : List Char) : Option (Reg → Instr) :=
  if m = ['I', 'N', 'C'] then some .inc
  else if m = ['D', 'E', 'C'] then some .dec
  else if m = ['N', 'O', 'T'] then some .not
  else none

/-- The register and byte instruction of a mnemonic. -/
def regByteMnemonic (m : List Char) : Option (Reg → Byte → Instr) :=
  if m = ['L', 'D', 'I'] then some .ldi
  else if m = ['L', 'D', 'M'] then some .ldm
  else if m = ['S', 'A', 'V'] then some .sav
  else none

/-- The jump of a mnemonic. -/
def jumpMnemonic (m : List Char) : Option (Byte → Instr) :=
  if m = ['J', 'M', 'P'] then some .jmp
  else if m = ['J', 'M', 'Z'] then some .jmz
  else if m = ['J', 'N', 'Z'] then some .jnz
  else none

/-- The instruction without operands of a mnemonic. -/
def plainMnemonic (m : List Char) : Option Instr :=
  if m = ['N', 'O', 'P'] then some .nop
  else if m = ['O', 'U', 'T'] then some .out
  else if m = ['H', 'L', 'T'] then some .hlt
  else none

/-- What an assembly line says. -/
inductive AsmLine where
  | instr (i : Instr)
  /-- Nothing but spaces and a comment. -/
  | blank
  /-- A line that R67 does not give. -/
  | malformed
  deriving DecidableEq, Repr

/-- A line from an instruction, or malformed. -/
def AsmLine.ofOption : Option Instr → AsmLine
  | some i => .instr i
  | none => .malformed

/-- The instruction of one word and one operand word: a one-register instruction or a jump. -/
def parseOne (m w : List Char) : Option Instr :=
  match regMnemonic m, jumpMnemonic m with
  | some f, _ => (parseReg w).map f
  | none, some f => (parseByte w).map f
  | none, none => none

/-- The instruction of one word and two operand words. -/
def parseTwo (m v w : List Char) : Option Instr :=
  match pairMnemonic m, regByteMnemonic m with
  | some f, _ => (parseReg v).bind fun rs => (parseReg w).map (f rs)
  | none, some f => (parseReg v).bind fun r => (parseByte w).map (f r)
  | none, none => none

/-- Read one assembly line (R67). -/
def parseLine (line : List Char) : AsmLine :=
  match wordsFrom [] (withoutComment line) with
  | [] => .blank
  | [m] => .ofOption (plainMnemonic m)
  | [m, w] => .ofOption (parseOne m w)
  | [m, v, w] => .ofOption (parseTwo m v w)
  | _ => .malformed

end Sys2Proof.Machine
end

