-- ==== Sys2Proof/Machine/Variants.lean ====
section
/-! DEFINITION. Sys2Proof/Machine/Variants.lean: the machine under any parameters (spec/00_scope.md R4; spec/93_implementation_defined.md U13:
"A model that implements them makes each a configuration field"). `execIn params` is `exec` and `stepIn params` is `step`
(Laws/Variants.lean). -/

namespace Sys2Proof.Machine

/-- The effect of one instruction under a configuration (R166 with the substitutions of U13). -/
def execIn (c : Config) (i : Instr) (s : State) : Host.Outcome State Fault Refusal :=
  match i with
  | .nop => execNopIn c s
  | .out => execOutIn c s
  | .hlt => execHltIn c s
  | .add rs rd => execAddIn c rs rd s
  | .sub rs rd => execSubIn c rs rd s
  | .inc r => execIncIn c r s
  | .dec r => execDecIn c r s
  | .ldi r vv => execLdiIn c r vv s
  | .ldm r aa => execLdmIn c r aa s
  | .sav r aa => execSavIn c r aa s
  | .jmp aa => execJmp aa s
  | .jmz aa => execJmzIn c aa s
  | .jnz aa => execJnzIn c aa s
  | .mov rs rd => execMovIn c rs rd s
  | .and rs rd => execAndIn c rs rd s
  | .or rs rd => execOrIn c rs rd s
  | .xor rs rd => execXorIn c rs rd s
  | .not r => execNotIn c r s
  | .cmp rs rd => execCmpIn c rs rd s

/-- One step under a configuration. -/
def stepIn (c : Config) (s : State) : Host.Outcome State Fault Refusal :=
  if s.halted then .refused .halted else andThen (fetch c s) fun i => execIn c i s

/-- `k` steps under a configuration, stopping at the first fault or refusal. -/
def runIn (c : Config) : Nat → State → Host.Outcome State Fault Refusal
  | 0, s => .next s
  | k + 1, s => andThen (stepIn c s) (runIn c k)

/-- The standard machine with `PC_WRAP = fault` (decision D3). -/
def faultingPc : Config := { params with pcWrap := .fault }

/-- The standard machine with `SAME_REG = refuse` (decision D12). -/
def refusingSameReg : Config := { params with sameReg := .refuse }

/-- The standard machine with `MEM_ORG = split` and the given program store (decision D4). -/
def splitMemory (program : Memory) : Config := { params with memOrg := .split program }

/-- The standard machine with `SUB_ORDER` = D minus S (decision D9). -/
def reversedSub : Config := { params with subOrder := .dMinusS }

/-- The standard machine with `ARITH_DEST` = `LOGIC_DEST` = D, the destination the field labels name (decisions D8, D10). -/
def labelledDest : Config := { params with arithDest := .dField, logicDest := .dField }

end Sys2Proof.Machine
end

