-- ==== Sys2Proof/Safety.lean ====
section
/-! DEFINITION. Sys2Proof/Safety.lean: how a run ends (spec/70_reset_and_hazards.md R167), the invariant of every reachable state, and the
words claims about what an instruction leaves unchanged are stated in. -/

namespace Sys2Proof.Machine

/-- The state is final: halted (R167 case 1). -/
def State.Final (s : State) : Prop := s.halted = true

/-- `k` steps from `s` (R167), stopping at the first fault or refusal; it is `Sys2Proof.core.run` (Laws/Run.lean). -/
def runSteps : Nat → State → Host.Outcome State Fault Refusal
  | 0, s => .next s
  | k + 1, s => andThen (step s) (runSteps k)

/-- The run from `s` ends halted in `t` after `k` steps (R167 case 1). -/
def HaltsAfter (k : Nat) (s t : State) : Prop := runSteps k s = .next t ∧ t.Final

/-- The run from `s` ends in a model fault (R167 case 2). -/
def Faulted (s : State) : Prop := ∃ k f, runSteps k s = .fault f

/-- The run from `s` does not end: every number of steps leaves it running (R167 case 3). -/
def Endless (s : State) : Prop := ∀ k, ∃ t, runSteps k s = .next t ∧ t.halted = false

/-- The display latch holds the last value of the trace, once there is one (R21). -/
def State.displayOk (s : State) : Prop := ∀ v, s.outs.getLast? = some v → s.out = v

/-- The invariant: memory is in canonical form and the display agrees with its trace. -/
structure State.Inv (s : State) : Prop where
  mem : s.mem.wf = true
  display : s.displayOk

/-- Every byte of memory reads as before. -/
def SameMemory (s t : State) : Prop := ∀ a : Byte, t.mem.read a = s.mem.read a

/-- Every byte of memory but the one at `k` reads as before. -/
def SameMemoryBut (k : Byte) (s t : State) : Prop := ∀ a : Byte, a ≠ k → t.mem.read a = s.mem.read a

/-- Every register reads as before. -/
def SameRegs (s t : State) : Prop := ∀ r : Reg, t.rd r = s.rd r

/-- Every register but `k` reads as before. -/
def SameRegsBut (k : Reg) (s t : State) : Prop := ∀ r : Reg, r ≠ k → t.rd r = s.rd r

/-- The display latch and its trace are as before. -/
def SameDisplay (s t : State) : Prop := t.out = s.out ∧ t.outs = s.outs

/-- The program counter has moved on by `n` bytes, modulo 256 (R15). -/
def PcPast (n : Nat) (s t : State) : Prop := t.pc.toNat = (s.pc.toNat + n) % 256

/-- Beyond the register `k`, the Zero flag and the program counter, which moves on by `n` bytes, nothing differs between `s` and `t`. -/
structure OnlyRegister (k : Reg) (n : Nat) (s t : State) : Prop where
  regs : SameRegsBut k s t
  memory : SameMemory s t
  display : SameDisplay s t
  halted : t.halted = s.halted
  pc : PcPast n s t

/-- The outcome of two instructions, one after the other. -/
def followedBy (i j : Instr) (s : State) : Host.Outcome State Fault Refusal := andThen (exec i s) (exec j)

/-- The register an instruction writes (the table of R12), if it writes one. -/
def writtenReg : Instr → Option Reg
  | .add rs _ | .sub rs _ | .and rs _ | .or rs _ | .xor rs _ => some rs
  | .mov _ rd => some rd
  | .inc r | .dec r | .not r | .ldi r _ | .ldm r _ => some r
  | .nop | .out | .hlt | .jmp _ | .jmz _ | .jnz _ | .cmp _ _ | .sav _ _ => none

/-- The data address of an instruction: the byte LDM reads and SAV writes (R31, R100). -/
def dataAddress : Instr → Option Byte
  | .ldm _ aa | .sav _ aa => some aa
  | .nop | .out | .hlt | .add _ _ | .sub _ _ | .inc _ | .dec _ | .ldi _ _ | .jmp _ | .jmz _ | .jnz _ => none
  | .mov _ _ | .and _ _ | .or _ _ | .xor _ _ | .not _ | .cmp _ _ => none

/-- The address the instruction jumps to, for a jump that is taken in `s` (R110 to R112). -/
def takenTarget (s : State) : Instr → Option Byte
  | .jmp aa => some aa
  | .jmz aa => if s.z then some aa else none
  | .jnz aa => if s.z then none else some aa
  | .nop | .out | .hlt | .add _ _ | .sub _ _ | .inc _ | .dec _ | .ldi _ _ | .ldm _ _ | .sav _ _ => none
  | .mov _ _ | .and _ _ | .or _ _ | .xor _ _ | .not _ | .cmp _ _ => none

/-- The instruction belongs to `Z_WRITERS` (R18). -/
def zWriter : Instr → Bool
  | .add _ _ | .sub _ _ | .inc _ | .dec _ | .and _ _ | .or _ _ | .xor _ _ | .not _ | .cmp _ _ => true
  | .nop | .out | .hlt | .ldi _ _ | .ldm _ _ | .sav _ _ | .jmp _ | .jmz _ | .jnz _ | .mov _ _ => false

end Sys2Proof.Machine
end

