-- ==== Sys2Proof/Certificates/Slice0/Obligations.lean ====
section
/-! DEFINITION. Sys2Proof/Certificates/Slice0/Obligations.lean: the statements for the provers. A docstring names the rule of spec/ a
statement formalises. Where that rule is one of the spec's own decisions (92_eei_decisions.md) rather than a statement of the source, the
docstring names the decision and the statement's basis is 'derived'. -/

open Sys2Proof Sys2Proof.Machine

namespace Sys2Proof.Claims

/-- The first byte with the given bits 7:6, 5:4 and 3:0 (30_encoding.md R50). -/
def firstByte (hi mid : BitVec 2) (lo : BitVec 4) : Byte := hi ++ mid ++ lo

/-- The two bits of a register field (10_state.md R10: A = 00, B = 01, C = 10, D = 11). -/
def regBits : Reg → BitVec 2
  | .A => 0b00
  | .B => 0b01
  | .C => 0b10
  | .D => 0b11

/-- The 114 first bytes that spell no instruction, as the table of 30_encoding.md R62 lists them. -/
def reservedBytes : List Nat :=
  [0x30, 0x40, 0x50, 0x60, 0x70, 0x80, 0x90, 0xA0, 0xB0, 0xC0, 0xD0, 0xE0, 0xF0] ++
  [0x03, 0x13, 0x43, 0x53, 0x83, 0x93, 0xC3, 0xD3] ++
  [0x34, 0x74, 0xB4, 0xF4] ++
  [0x35, 0x45, 0x55, 0x65, 0x75, 0x85, 0x95, 0xA5, 0xB5, 0xC5, 0xD5, 0xE5, 0xF5] ++
  [0x1A, 0x2A, 0x3A, 0x5A, 0x6A, 0x7A, 0x9A, 0xAA, 0xBA, 0xDA, 0xEA, 0xFA] ++
  [0x0C, 0x1C, 0x2C, 0x3C, 0x4C, 0x5C, 0x6C, 0x7C, 0x8C, 0x9C, 0xAC, 0xBC, 0xCC, 0xDC, 0xEC, 0xFC] ++
  [0x0D, 0x1D, 0x2D, 0x3D, 0x4D, 0x5D, 0x6D, 0x7D, 0x8D, 0x9D, 0xAD, 0xBD, 0xCD, 0xDD, 0xED, 0xFD] ++
  [0x0E, 0x1E, 0x2E, 0x3E, 0x4E, 0x5E, 0x6E, 0x7E, 0x8E, 0x9E, 0xAE, 0xBE, 0xCE, 0xDE, 0xEE, 0xFE] ++
  [0x0F, 0x1F, 0x2F, 0x3F, 0x4F, 0x5F, 0x6F, 0x7F, 0x8F, 0x9F, 0xAF, 0xBF, 0xCF, 0xDF, 0xEF, 0xFF]

/-- The byte is the first byte of a two-byte instruction (R64). -/
def twoByte (b0 : Byte) : Prop := b0.toNat ∉ reservedBytes ∧ (b0.toNat % 16 = 4 ∨ b0.toNat % 16 = 5)

/-- `s` and `d` differ only in memory, and there they agree outside `F`; on `F` the memory of `s` holds the program `P`
(20_memory.md R32: the machine with one memory in `s`, the one with a separate program store `P` in `d`). -/
structure CodeApart (F : Byte → Prop) (P : Memory) (s d : State) : Prop where
  regs : SameRegs s d
  pc : d.pc = s.pc
  z : d.z = s.z
  halted : d.halted = s.halted
  display : SameDisplay s d
  code : ∀ a, F a → s.mem.read a = P.read a
  data : ∀ a, ¬ F a → d.mem.read a = s.mem.read a

/-- Every byte of the instruction at the program counter is fetched from `F`, and its data access, if it has one, is outside `F`. -/
structure FetchesWithin (F : Byte → Prop) (s : State) : Prop where
  first : F s.pc
  second : ∀ b0, s.mem.read s.pc = some b0 → twoByte b0 → F (nextAddr s.pc 1)
  apart : ∀ i a, fetch params s = .next i → dataAddress i = some a → ¬ F a

end Sys2Proof.Claims

open Sys2Proof.Claims

/-! Encoding. -/

/-- Decoding an encoded instruction gives it back, whatever bytes follow: all 19 instructions, every register, every operand byte
(30_encoding.md R61 and R70; the same-register forms by decision D12). -/
def Obligations.DecodeUndoesEncode : Prop := ∀ (i : Instr) (rest : List Byte), decode (encode i ++ rest) = .instr i rest

/-- Each accepted word has one meaning: the bytes an instruction was decoded from are its encoding (R61, R70). -/
def Obligations.EncodeUndoesDecode : Prop :=
  ∀ (bs rest : List Byte) (i : Instr), decode bs = .instr i rest → encode i ++ rest = bs

/-- The decoder rejects exactly the 114 first bytes of the table of R62, each by name and whatever follows it (R60, R62; full decoding is
decision D19). -/
def Obligations.RejectedFirstBytesAreTheTable : Prop :=
  reservedBytes.length = 114 ∧ reservedBytes.Nodup ∧
  ∀ (b0 : Byte) (rest : List Byte), decode (b0 :: rest) = .illegal b0 ↔ b0.toNat ∈ reservedBytes

/-- The shapes SYS, RT and R1 bit by bit, with their unassigned type fields (R52, R54, R57). -/
def Obligations.ShapesWithoutOperandByte : Prop :=
  ∀ rest : List Byte,
    (decode (firstByte 0b00 0b00 0b0000 :: rest) = .instr .nop rest ∧ (firstByte 0b00 0b00 0b0000).toNat = 0x00) ∧
    (decode (firstByte 0b00 0b01 0b0000 :: rest) = .instr .out rest ∧ (firstByte 0b00 0b01 0b0000).toNat = 0x10) ∧
    (decode (firstByte 0b00 0b10 0b0000 :: rest) = .instr .hlt rest ∧ (firstByte 0b00 0b10 0b0000).toNat = 0x20) ∧
    (decode (firstByte 0b00 0b11 0b0000 :: rest) = .illegal (firstByte 0b00 0b11 0b0000) ∧ (firstByte 0b00 0b11 0b0000).toNat = 0x30) ∧
    ∀ r : Reg,
      (decode (firstByte (regBits r) 0b10 0b0011 :: rest) = .instr (.inc r) rest ∧
        (firstByte (regBits r) 0b10 0b0011).toNat = 64 * regNumber r + 0x23) ∧
      (decode (firstByte (regBits r) 0b11 0b0011 :: rest) = .instr (.dec r) rest ∧
        (firstByte (regBits r) 0b11 0b0011).toNat = 64 * regNumber r + 0x33) ∧
      decode (firstByte (regBits r) 0b00 0b0011 :: rest) = .illegal (firstByte (regBits r) 0b00 0b0011) ∧
      decode (firstByte (regBits r) 0b01 0b0011 :: rest) = .illegal (firstByte (regBits r) 0b01 0b0011) ∧
      (decode (firstByte (regBits r) 0b00 0b1010 :: rest) = .instr (.not r) rest ∧
        (firstByte (regBits r) 0b00 0b1010).toNat = 64 * regNumber r + 0x0A) ∧
      ∀ mid : BitVec 2, mid ≠ 0b00 → decode (firstByte (regBits r) mid 0b1010 :: rest) = .illegal (firstByte (regBits r) mid 0b1010)

/-- The shapes RTB and JB bit by bit, with their operand byte and their unassigned type fields (R55, R56). -/
def Obligations.ShapesWithOperandByte : Prop :=
  ∀ (b1 : Byte) (rest : List Byte),
    (∀ r : Reg,
      (decode (firstByte (regBits r) 0b00 0b0100 :: b1 :: rest) = .instr (.ldi r b1) rest ∧
        (firstByte (regBits r) 0b00 0b0100).toNat = 64 * regNumber r + 0x04) ∧
      (decode (firstByte (regBits r) 0b01 0b0100 :: b1 :: rest) = .instr (.ldm r b1) rest ∧
        (firstByte (regBits r) 0b01 0b0100).toNat = 64 * regNumber r + 0x14) ∧
      (decode (firstByte (regBits r) 0b10 0b0100 :: b1 :: rest) = .instr (.sav r b1) rest ∧
        (firstByte (regBits r) 0b10 0b0100).toNat = 64 * regNumber r + 0x24) ∧
      decode (firstByte (regBits r) 0b11 0b0100 :: b1 :: rest) = .illegal (firstByte (regBits r) 0b11 0b0100)) ∧
    (decode (firstByte 0b00 0b00 0b0101 :: b1 :: rest) = .instr (.jmp b1) rest ∧ (firstByte 0b00 0b00 0b0101).toNat = 0x05) ∧
    (decode (firstByte 0b00 0b01 0b0101 :: b1 :: rest) = .instr (.jmz b1) rest ∧ (firstByte 0b00 0b01 0b0101).toNat = 0x15) ∧
    (decode (firstByte 0b00 0b10 0b0101 :: b1 :: rest) = .instr (.jnz b1) rest ∧ (firstByte 0b00 0b10 0b0101).toNat = 0x25) ∧
    (decode (firstByte 0b00 0b11 0b0101 :: b1 :: rest) = .illegal (firstByte 0b00 0b11 0b0101) ∧
      (firstByte 0b00 0b11 0b0101).toNat = 0x35) ∧
    ∀ hi mid : BitVec 2, hi ≠ 0b00 → decode (firstByte hi mid 0b0101 :: b1 :: rest) = .illegal (firstByte hi mid 0b0101)

/-- The shape RR: all sixteen register pairs of each of its seven instructions, the four with S = D included (R53, R66; the latter is
decision D12). -/
def Obligations.TwoRegisterShape : Prop :=
  ∀ (rs rd : Reg) (rest : List Byte),
    decode (firstByte (regBits rs) (regBits rd) 0b0001 :: rest) = .instr (.add rs rd) rest ∧
    decode (firstByte (regBits rs) (regBits rd) 0b0010 :: rest) = .instr (.sub rs rd) rest ∧
    decode (firstByte (regBits rs) (regBits rd) 0b0110 :: rest) = .instr (.mov rs rd) rest ∧
    decode (firstByte (regBits rs) (regBits rd) 0b0111 :: rest) = .instr (.and rs rd) rest ∧
    decode (firstByte (regBits rs) (regBits rd) 0b1000 :: rest) = .instr (.or rs rd) rest ∧
    decode (firstByte (regBits rs) (regBits rd) 0b1001 :: rest) = .instr (.xor rs rd) rest ∧
    decode (firstByte (regBits rs) (regBits rd) 0b1011 :: rest) = .instr (.cmp rs rd) rest ∧
    ∀ n : Nat, n < 16 → (firstByte (regBits rs) (regBits rd) (BitVec.ofNat 4 n)).toNat = 64 * regNumber rs + 16 * regNumber rd + n

/-- The list of the 28 forms that nothing in the source shows is the list of the encodings of a two-register instruction with one register in
both fields (R66; 93_implementation_defined.md U5; decision D12). -/
def Obligations.SameRegisterFormsAreTheTwentyEight : Prop :=
  sameRegisterForms.length = 28 ∧ sameRegisterForms.Nodup ∧
  ∀ (b0 : Byte) (rest : List Byte), b0 ∈ sameRegisterForms ↔ ∃ i r, decode (b0 :: rest) = .instr i rest ∧ i.registerPair = some (r, r)

/-- Words of the source's own listing, bit by bit, one for each shape (95_test_vectors.md section 1). -/
def Obligations.SourceWordsDecode : Prop :=
  decode [0b00010000] = .instr .out [] ∧
  decode [0b00010001] = .instr (.add .A .B) [] ∧
  decode [0b11100110] = .instr (.mov .D .C) [] ∧
  decode [0b10100011] = .instr (.inc .C) [] ∧
  decode [0b11100100, 0b10000000] = .instr (.sav .D 0x80) [] ∧
  decode [0b00010101, 0b00001011] = .instr (.jmz 0x0B) [] ∧
  decode [0b10001010] = .instr (.not .C) []

/-- The length rule: an instruction takes two bytes if the low nibble of its first byte is 0100 or 0101, which is so of LDI, LDM, SAV, JMP,
JMZ and JNZ, and one byte otherwise (R64). -/
def Obligations.LengthFromFirstByte : Prop :=
  ∀ (b0 : Byte) (bs rest : List Byte) (i : Instr), decode (b0 :: bs) = .instr i rest →
    (b0 :: bs).length = rest.length + (if b0.toNat % 16 = 4 ∨ b0.toNat % 16 = 5 then 2 else 1) ∧
    ((b0.toNat % 16 = 4 ∨ b0.toNat % 16 = 5) ↔
      (∃ r v, i = .ldi r v) ∨ (∃ r a, i = .ldm r a) ∨ (∃ r a, i = .sav r a) ∨ (∃ a, i = .jmp a) ∨ (∃ a, i = .jmz a) ∨ ∃ a, i = .jnz a)

/-- Decoding depends on no state but the bytes at the program counter: two states with the same program counter and the same two bytes there
fetch alike, whatever their registers, flag, display and other memory (R65). -/
def Obligations.FetchReadsOnlyItsBytes : Prop :=
  ∀ s t : State, t.pc = s.pc → t.mem.read s.pc = s.mem.read s.pc →
    t.mem.read (nextAddr s.pc 1) = s.mem.read (nextAddr s.pc 1) → fetch params t = fetch params s

/-! The step. -/

/-- A step of a running machine is `exec` of the instruction its bytes at the program counter decode to; `exec` itself moves the program
counter (70_reset_and_hazards.md R166, 30_encoding.md R51). -/
def Obligations.StepRunsDecodedInstruction : Prop :=
  ∀ s : State, s.halted = false →
    (∀ (b0 : Byte) (i : Instr), s.mem.read s.pc = some b0 → decode [b0] = .instr i [] → step s = exec i s) ∧
    ∀ (b0 b1 : Byte) (i : Instr), s.mem.read s.pc = some b0 → s.mem.read (nextAddr s.pc 1) = some b1 →
      decode [b0, b1] = .instr i [] → step s = exec i s

/-- Conversely, a step that goes on executed the instruction whose encoding stands at the program counter (R166). -/
def Obligations.StepOnlyRunsWhatIsThere : Prop :=
  ∀ s t : State, step s = .next t → s.halted = false ∧ ∃ i, exec i s = .next t ∧
    ((∃ b0, encode i = [b0] ∧ s.mem.read s.pc = some b0) ∨
     ∃ b0 b1, encode i = [b0, b1] ∧ s.mem.read s.pc = some b0 ∧ s.mem.read (nextAddr s.pc 1) = some b1)

/-- A two-byte instruction whose first byte is at 0xFF takes its operand byte from 0x00 and, unless it jumps, is followed by the instruction
at 0x01 (20_memory.md R45; decisions D3 and D27). -/
def Obligations.OperandFetchWrapsAtTop : Prop :=
  ∀ (s : State) (b0 b1 : Byte) (i : Instr), s.halted = false → s.pc = 0xFF → encode i = [b0, b1] →
    s.mem.read 0xFF = some b0 → s.mem.read 0x00 = some b1 →
    step s = exec i s ∧ ∀ t, exec i s = .next t → takenTarget s i = none → t.pc = 0x01

/-- The checks of a step come in the order of 60_exceptions.md R147: halted, first byte unwritten, first byte reserved (whatever the next
byte is), operand byte unwritten (decisions D18, D25 and D30; that the halted machine answers `refused halted` is log 5, that an unwritten
byte faults is log 4). -/
def Obligations.FetchChecksInOrder : Prop :=
  ∀ s : State,
    (s.halted = true → step s = .refused .halted) ∧
    (s.halted = false → s.mem.read s.pc = none → step s = .fault (.unspecifiedRead s.pc)) ∧
    (∀ b0, s.halted = false → s.mem.read s.pc = some b0 → b0.toNat ∈ reservedBytes →
      step s = .fault (.illegalInstruction s.pc b0)) ∧
    ∀ b0, s.halted = false → s.mem.read s.pc = some b0 → twoByte b0 → s.mem.read (nextAddr s.pc 1) = none →
      step s = .fault (.unspecifiedRead (nextAddr s.pc 1))

/-- Only these events stop the standard machine: a reserved first byte, a read of an unwritten byte by the fetch or by LDM, and having halted.
No instruction traps and the program counter never overflows (60_exceptions.md R140, R141, R143; decisions D3, D12, D17, D18, D21, D25; D12: no
same-register form is refused). The model's own choices here: that a halted machine answers `refused halted` is log 5 (the spec: R20, R152),
that an unwritten byte faults is log 4, that a read of a register or of the flag nothing has written does not fault is log 1 and log 2 (U1, U2
and R143 allow `UnspecifiedRead` there, and recommend it). -/
def Obligations.OnlyTheseEventsStop : Prop :=
  ∀ s : State,
    (∀ q, step s = .refused q ↔ s.halted = true ∧ q = .halted) ∧
    (∀ a b, step s = .fault (.illegalInstruction a b) ↔
      s.halted = false ∧ a = s.pc ∧ s.mem.read a = some b ∧ b.toNat ∈ reservedBytes) ∧
    (∀ a, step s = .fault (.unspecifiedRead a) → s.halted = false ∧ s.mem.read a = none ∧
      (a = s.pc ∨ a = nextAddr s.pc 1 ∨ ∃ r, fetch params s = .next (.ldm r a))) ∧
    ∀ a, step s ≠ .fault (.pcOverflow a)

/-! Reset, the invariant, the end of a run. -/

/-- The reset state, for every value of what the spec leaves OPEN: those values as given, the program counter at 0x00, running, an empty
display trace, and memory holding the image where the image has a byte and nothing elsewhere; under another configuration only the program
counter differs (10_state.md R25, 70_reset_and_hazards.md R160; decision D20). The image is a list here, where the spec has a partial map: that
the first pair for an address gives its byte is the model's choice, log 6. -/
def Obligations.ResetStateForEveryImage : Prop :=
  ∀ (regs : Regs) (z : Bool) (out : Byte) (image : List (Byte × Byte)),
    (State.resetOf regs z out image).x = regs ∧ (State.resetOf regs z out image).z = z ∧
    (State.resetOf regs z out image).out = out ∧
    (State.resetOf regs z out image).pc = 0x00 ∧ (State.resetOf regs z out image).halted = false ∧
    (State.resetOf regs z out image).outs = [] ∧
    (∀ a, (State.resetOf regs z out image).mem.read a = image.lookup a) ∧
    ∀ c, State.resetIn c regs z out image = { State.resetOf regs z out image with pc := c.resetPc }

/-- Every reset state meets the invariant: canonical memory (the canonical form is the model's own, log 14), and a display that agrees with its
trace (10_state.md R21), which is empty after reset (R25). -/
def Obligations.ResetMeetsInvariant : Prop :=
  State.reset.Inv ∧ ∀ (regs : Regs) (z : Bool) (out : Byte) (image : List (Byte × Byte)), (State.resetOf regs z out image).Inv

/-- Every step keeps the invariant, from every state that meets it, reached or not: memory stays in canonical form (only the 256 addresses of
20_memory.md R30, each once), and `out` stays the last value of `outs` (10_state.md R21; decision D16). -/
def Obligations.StepKeepsInvariant : Prop := ∀ s t : State, s.Inv → step s = .next t → t.Inv

/-- A run ends in exactly one of three ways: halted, faulted, or not at all; and a halted run has one final state and one length
(70_reset_and_hazards.md R167; decisions D17, D18 and D23). From a running state. -/
def Obligations.ExactlyOneEnding : Prop :=
  ∀ s : State, s.halted = false →
    ((∃ k t, HaltsAfter k s t) ∨ Faulted s ∨ Endless s) ∧
    ¬ ((∃ k t, HaltsAfter k s t) ∧ Faulted s) ∧ ¬ ((∃ k t, HaltsAfter k s t) ∧ Endless s) ∧ ¬ (Faulted s ∧ Endless s) ∧
    ∀ k k' t t', HaltsAfter k s t → HaltsAfter k' s t' → k = k' ∧ t = t'

/-! The instructions: result, flag and frame. Each answers a next state. -/

/-- NOP changes the program counter and nothing else (40_nop_out_hlt.md R80; decision D26). -/
def Obligations.NopOnlyAdvances : Prop :=
  ∀ s : State, ∃ t, exec .nop s = .next t ∧ PcPast 1 s t ∧ SameRegs s t ∧ t.z = s.z ∧ t.halted = s.halted ∧ SameDisplay s t ∧
    SameMemory s t

/-- OUT shows the value of register A and appends it to the trace (R81; that it is A is decision D15).
That it says so of a register nothing has written since reset too is the model's choice, log 15. -/
def Obligations.OutDisplaysRegisterA : Prop :=
  ∀ s : State, ∃ t, exec .out s = .next t ∧ t.out = s.rd .A ∧ t.outs = s.outs ++ [s.rd .A] ∧ PcPast 1 s t ∧ SameRegs s t ∧
    t.z = s.z ∧ t.halted = s.halted ∧ SameMemory s t

/-- HLT sets the halted latch and keeps everything else; the machine then has no step (R82, 60_exceptions.md R152; decision D17; the answer
`refused halted` is log 5). -/
def Obligations.HltHaltsForGood : Prop :=
  ∀ s : State, ∃ t, exec .hlt s = .next t ∧ t.halted = true ∧ step t = .refused .halted ∧ PcPast 1 s t ∧ SameRegs s t ∧
    t.z = s.z ∧ SameDisplay s t ∧ SameMemory s t

/-- ADD writes the sum modulo 256 to S, also when S = D, and the flag from it (41_arithmetic.md R90, R94; decisions D1, D8, D12 to D14).
That it says so of a register nothing has written since reset too is the model's choice, log 15. -/
def Obligations.AddWritesSumToFirst : Prop :=
  ∀ (rs rd : Reg) (s : State), ∃ t, exec (.add rs rd) s = .next t ∧
    (t.rd rs).toNat = ((s.rd rs).toNat + (s.rd rd).toNat) % 256 ∧
    (t.z = true ↔ ((s.rd rs).toNat + (s.rd rd).toNat) % 256 = 0) ∧ OnlyRegister rs 1 s t

/-- SUB writes S minus D modulo 256 to S, and sets the flag exactly when the two were equal (R91, R94; decisions D1, D8, D9, D12 to D14).
That it says so of a register nothing has written since reset too is the model's choice, log 15. -/
def Obligations.SubWritesDifferenceToFirst : Prop :=
  ∀ (rs rd : Reg) (s : State), ∃ t, exec (.sub rs rd) s = .next t ∧
    ((t.rd rs).toNat : Int) = (((s.rd rs).toNat : Int) - ((s.rd rd).toNat : Int)) % 256 ∧
    (t.z = true ↔ s.rd rs = s.rd rd) ∧ OnlyRegister rs 1 s t

/-- INC adds one modulo 256 and sets the flag exactly when the register held 0xFF (R92; decisions D1, D13, D14).
That it says so of a register nothing has written since reset too is the model's choice, log 15. -/
def Obligations.IncAddsOne : Prop :=
  ∀ (r : Reg) (s : State), ∃ t, exec (.inc r) s = .next t ∧ (t.rd r).toNat = ((s.rd r).toNat + 1) % 256 ∧
    (t.z = true ↔ s.rd r = 0xFF) ∧ OnlyRegister r 1 s t

/-- DEC subtracts one modulo 256 and sets the flag exactly when the register held 0x01 (R93; decisions D1, D13, D14).
That it says so of a register nothing has written since reset too is the model's choice, log 15. -/
def Obligations.DecSubtractsOne : Prop :=
  ∀ (r : Reg) (s : State), ∃ t, exec (.dec r) s = .next t ∧ ((t.rd r).toNat : Int) = (((s.rd r).toNat : Int) - 1) % 256 ∧
    (t.z = true ↔ s.rd r = 0x01) ∧ OnlyRegister r 1 s t

/-- LDI loads its operand byte and leaves the flag alone (42_load_store.md R101; decisions D7, D13). -/
def Obligations.LdiLoadsOperand : Prop :=
  ∀ (r : Reg) (vv : Byte) (s : State), ∃ t, exec (.ldi r vv) s = .next t ∧ t.rd r = vv ∧ t.z = s.z ∧ OnlyRegister r 2 s t

/-- LDM loads the byte at its address and leaves the flag and memory alone, whenever that byte has been written (R102; decisions D4, D5,
D13). -/
def Obligations.LdmLoadsByte : Prop :=
  ∀ (r : Reg) (aa v : Byte) (s : State), s.mem.read aa = some v →
    ∃ t, exec (.ldm r aa) s = .next t ∧ t.rd r = v ∧ t.z = s.z ∧ OnlyRegister r 2 s t

/-- LDM of a byte nothing has written is the model fault UnspecifiedRead, and that is the only way an instruction's own effect stops
(60_exceptions.md R142; decisions D3, D12 and D25; the model's choice of the fault is log 4). That no
other instruction stops, also on a register or a flag nothing has written, is the model's choice of log 1 and log 2: U1, U2 and R143 allow
`UnspecifiedRead` there, and recommend it. -/
def Obligations.OnlyLdmOfUnwrittenByteStops : Prop :=
  ∀ (i : Instr) (s : State), (¬ ∃ t, exec i s = .next t) ↔
    ∃ r aa, i = .ldm r aa ∧ s.mem.read aa = none ∧ exec i s = .fault (.unspecifiedRead aa)

/-- SAV stores the register at the address its operand gives, as `effectiveAddress` computes it, and every other byte reads as before; nothing
else changes but the program counter (R103, R37; decisions D4, D5).
That it says so of a register nothing has written since reset too is the model's choice, log 15. -/
def Obligations.SavStoresByte : Prop :=
  ∀ (r : Reg) (aa : Byte) (s : State), ∃ t, exec (.sav r aa) s = .next t ∧
    (∀ a, effectiveAddress aa = a → t.mem.read a = some (s.rd r) ∧ SameMemoryBut a s t) ∧
    SameRegs s t ∧ t.z = s.z ∧ t.halted = s.halted ∧ SameDisplay s t ∧ PcPast 2 s t

/-- JMP goes to its operand byte and changes nothing else; it does not read the flag; a jump to itself never ends; a jump to the next
instruction is a two-byte no-op (43_jumps.md R110). -/
def Obligations.JmpGoesToOperand : Prop :=
  (∀ aa : Byte, encode (.jmp aa) = [0x05, aa] ∧ decode [0x05, aa] = .instr (.jmp aa) []) ∧
  (∀ (aa : Byte) (s : State), ∃ t, exec (.jmp aa) s = .next t ∧ t.pc = aa ∧ SameRegs s t ∧ t.z = s.z ∧ t.halted = s.halted ∧
    SameDisplay s t ∧ SameMemory s t ∧
    (∀ b, ∃ u, exec (.jmp aa) { s with z := b } = .next u ∧ u.pc = aa ∧ u.z = b) ∧
    (aa = nextAddr s.pc 2 → PcPast 2 s t)) ∧
  ∀ s : State, s.halted = false → s.mem.read s.pc = some 0x05 → s.mem.read (nextAddr s.pc 1) = some s.pc → Endless s

/-- JMZ goes to its operand byte if the flag is set and to the next instruction otherwise, changing nothing else; the operand byte is fetched
in both cases; after CMP, SUB or XOR it jumps if the two were equal, after DEC if the register reached zero, after AND if no bit was common
(R111).
Decisions D13 and D14 for what stands before the jump, D3 for falling through at the
top. Of a flag nothing has written (R114, U2) it is log 2, and of a register nothing has written, before CMP, SUB, XOR, DEC or AND, log 15:
the model's choices. -/
def Obligations.JmzJumpsIfSet : Prop :=
  (∀ aa : Byte, encode (.jmz aa) = [0x15, aa] ∧ decode [0x15, aa] = .instr (.jmz aa) []) ∧
  (∀ (aa : Byte) (s : State), ∃ t, exec (.jmz aa) s = .next t ∧ (s.z = true → t.pc = aa) ∧ (s.z = false → PcPast 2 s t) ∧
    SameRegs s t ∧ t.z = s.z ∧ t.halted = s.halted ∧ SameDisplay s t ∧ SameMemory s t) ∧
  (∀ s t : State, s.mem.read s.pc = some 0x15 → step s = .next t →
    ∃ b1, s.mem.read (nextAddr s.pc 1) = some b1 ∧ exec (.jmz b1) s = .next t) ∧
  (∀ (mk : Reg → Reg → Instr) (rs rd : Reg) (aa : Byte) (s : State), mk ∈ [Instr.cmp, Instr.sub, Instr.xor] →
    ∃ u, followedBy (mk rs rd) (.jmz aa) s = .next u ∧ u.pc = if s.rd rs = s.rd rd then aa else nextAddr s.pc 3) ∧
  (∀ (r : Reg) (aa : Byte) (s : State),
    ∃ u, followedBy (.dec r) (.jmz aa) s = .next u ∧ u.pc = if u.rd r = 0 then aa else nextAddr s.pc 3) ∧
  ∀ (rs rd : Reg) (aa : Byte) (s : State),
    ∃ u, followedBy (.and rs rd) (.jmz aa) s = .next u ∧ u.pc = if s.rd rs &&& s.rd rd = 0 then aa else nextAddr s.pc 3

/-- JNZ goes to its operand byte if the flag is not set and to the next instruction otherwise, changing nothing else; on the same flag exactly
one of JMZ and JNZ jumps; the operand byte is fetched in both cases; after CMP it jumps if the two differed (R112).
Decisions D13 and D14 for what CMP leaves, D3 for falling through at the top. Of a
flag nothing has written (R114, U2) it is log 2, and of a register nothing has written, before CMP, log 15: the model's choices. -/
def Obligations.JnzJumpsIfNotSet : Prop :=
  (∀ aa : Byte, encode (.jnz aa) = [0x25, aa] ∧ decode [0x25, aa] = .instr (.jnz aa) []) ∧
  (∀ (aa : Byte) (s : State), ∃ t, exec (.jnz aa) s = .next t ∧ (s.z = false → t.pc = aa) ∧ (s.z = true → PcPast 2 s t) ∧
    SameRegs s t ∧ t.z = s.z ∧ t.halted = s.halted ∧ SameDisplay s t ∧ SameMemory s t ∧
    ∃ u, exec (.jmz aa) s = .next u ∧ ((t.pc = aa ∧ u.pc = nextAddr s.pc 2) ∨ (t.pc = nextAddr s.pc 2 ∧ u.pc = aa))) ∧
  (∀ s t : State, s.mem.read s.pc = some 0x25 → step s = .next t →
    ∃ b1, s.mem.read (nextAddr s.pc 1) = some b1 ∧ exec (.jnz b1) s = .next t) ∧
  ∀ (rs rd : Reg) (aa : Byte) (s : State),
    ∃ u, followedBy (.cmp rs rd) (.jnz aa) s = .next u ∧ u.pc = if s.rd rs = s.rd rd then nextAddr s.pc 3 else aa

/-- MOV copies S to D and leaves the flag alone (44_move.md R120; decisions D11 to D13). That it says so of a
register nothing has written since reset too is the model's choice, log 15. -/
def Obligations.MovCopiesFirstToSecond : Prop :=
  ∀ (rs rd : Reg) (s : State), ∃ t, exec (.mov rs rd) s = .next t ∧ t.rd rd = s.rd rs ∧ t.z = s.z ∧ OnlyRegister rd 1 s t

/-- AND works bit by bit, writes S, and sets the flag exactly when no bit is common (45_logic.md R125, R129; decisions D10, D12 to D14).
That it says so of a register nothing has written since reset too is the model's choice, log 15. -/
def Obligations.AndIsBitwise : Prop :=
  ∀ (rs rd : Reg) (s : State), ∃ t, exec (.and rs rd) s = .next t ∧
    (∀ n, (t.rd rs).getLsbD n = ((s.rd rs).getLsbD n && (s.rd rd).getLsbD n)) ∧
    (t.z = true ↔ ∀ n, ¬ ((s.rd rs).getLsbD n = true ∧ (s.rd rd).getLsbD n = true)) ∧ OnlyRegister rs 1 s t

/-- OR works bit by bit, writes S, and sets the flag exactly when both operands are zero (R126, R129; decisions D10, D12 to D14). That it says
so of a register nothing has written since reset too is the model's choice, log 15. -/
def Obligations.OrIsBitwise : Prop :=
  ∀ (rs rd : Reg) (s : State), ∃ t, exec (.or rs rd) s = .next t ∧
    (∀ n, (t.rd rs).getLsbD n = ((s.rd rs).getLsbD n || (s.rd rd).getLsbD n)) ∧
    (t.z = true ↔ s.rd rs = 0 ∧ s.rd rd = 0) ∧ OnlyRegister rs 1 s t

/-- XOR works bit by bit, writes S, and sets the flag exactly when the operands are equal (R127, R129; decisions D10, D12 to D14). That it says so
of a register nothing has written since reset too is the model's choice, log 15. -/
def Obligations.XorIsBitwise : Prop :=
  ∀ (rs rd : Reg) (s : State), ∃ t, exec (.xor rs rd) s = .next t ∧
    (∀ n, (t.rd rs).getLsbD n = ((s.rd rs).getLsbD n != (s.rd rd).getLsbD n)) ∧
    (t.z = true ↔ s.rd rs = s.rd rd) ∧ OnlyRegister rs 1 s t

/-- NOT is the one's complement, sets the flag exactly when the register held 0xFF, and applied twice restores the register (R128;
decisions D13, D14).
That it says so of a register nothing has written since reset too is the model's choice, log 15. -/
def Obligations.NotComplements : Prop :=
  ∀ (r : Reg) (s : State), (∃ t, exec (.not r) s = .next t ∧ (t.rd r).toNat = 255 - (s.rd r).toNat ∧
      (t.z = true ↔ s.rd r = 0xFF) ∧ OnlyRegister r 1 s t) ∧
    ∃ u, followedBy (.not r) (.not r) s = .next u ∧ SameRegs s u

/-- CMP sets the flag exactly when its operands are equal and changes nothing else; the flag is the one SUB would leave (46_compare.md R135;
decisions D12 to D14). That it says so of a register nothing has written since reset too is the model's choice, log 15. -/
def Obligations.CmpReportsEquality : Prop :=
  ∀ (rs rd : Reg) (s : State), ∃ t, exec (.cmp rs rd) s = .next t ∧ (t.z = true ↔ s.rd rs = s.rd rd) ∧ SameRegs s t ∧
    t.halted = s.halted ∧ SameDisplay s t ∧ SameMemory s t ∧ PcPast 1 s t ∧
    ∃ u, exec (.sub rs rd) s = .next u ∧ u.z = t.z

/-! Whole-machine rules, over all instructions. -/

/-- The table of 10_state.md R12: an instruction changes no register but the one the table gives it (decision D15 for OUT). -/
def Obligations.OnlyTabledRegisterWritten : Prop :=
  ∀ (i : Instr) (s t : State), exec i s = .next t → ∀ r, writtenReg i ≠ some r → t.rd r = s.rd r

/-- The Zero flag is written by the nine instructions of `Z_WRITERS` from their 8-bit result, and by no other (R18; decisions D13, D14).
That it says so of a register nothing has written since reset too is the model's choice, log 15. -/
def Obligations.OnlyZWritersWriteFlag : Prop :=
  ∀ (i : Instr) (s t : State), exec i s = .next t →
    (zWriter i = false → t.z = s.z) ∧
    (∀ k, zWriter i = true → writtenReg i = some k → (t.z = true ↔ t.rd k = 0)) ∧
    ∀ rs rd, i = .cmp rs rd → (t.z = true ↔ s.rd rs = s.rd rd)

/-- The Zero flag is read by JMZ and JNZ only: any other instruction does the same whatever the flag is, but for the flag itself (R18, R17). -/
def Obligations.OnlyConditionalJumpsReadFlag : Prop :=
  ∀ (i : Instr) (s t : State) (b : Bool), (∀ aa, i ≠ .jmz aa ∧ i ≠ .jnz aa) → exec i s = .next t →
    ∃ u, exec i { s with z := b } = .next u ∧ SameRegs t u ∧ u.pc = t.pc ∧ u.halted = t.halted ∧ SameDisplay t u ∧ SameMemory t u ∧
      u.z = (if zWriter i then t.z else b)

/-- Memory is changed by SAV only, at its address only, to its register's value (20_memory.md R31, R37; decision D5).
That it says so of a register nothing has written since reset too is the model's choice, log 15. -/
def Obligations.OnlySavWritesMemory : Prop :=
  ∀ (i : Instr) (s t : State), exec i s = .next t → ∀ a,
    ((∀ r, i ≠ .sav r a) → t.mem.read a = s.mem.read a) ∧ ∀ r, i = .sav r a → t.mem.read a = some (s.rd r)

/-- The display is changed by OUT only, and the trace only grows, by one value at a time (10_state.md R21; decisions D15, D16).
That it says so of a register nothing has written since reset too is the model's choice, log 15. -/
def Obligations.OnlyOutChangesDisplay : Prop :=
  ∀ (i : Instr) (s t : State), exec i s = .next t →
    (i ≠ .out → SameDisplay s t) ∧ (i = .out → t.out = s.rd .A ∧ t.outs = s.outs ++ [s.rd .A])

/-- No instruction reads the display: two states that differ in it alone step alike, to states that differ in it alone, or stop alike (R21). -/
def Obligations.DisplayIsNeverRead : Prop :=
  ∀ (s : State) (o : Byte) (l : List Byte),
    (∀ t, step s = .next t → ∃ u, step { s with out := o, outs := l } = .next u ∧ SameRegs t u ∧ u.pc = t.pc ∧ u.z = t.z ∧
      u.halted = t.halted ∧ SameMemory t u) ∧
    (∀ f, step s = .fault f → step { s with out := o, outs := l } = .fault f) ∧
    ∀ q, step s = .refused q → step { s with out := o, outs := l } = .refused q

/-- A step leaves the machine halted exactly when the byte at the program counter was HLT; nothing else sets the latch and no step clears it
(10_state.md R20; decision D17). -/
def Obligations.OnlyHltHalts : Prop :=
  ∀ s t : State, step s = .next t → s.halted = false ∧ (t.halted = true ↔ s.mem.read s.pc = some 0x20)

/-- The flow of control is sequential but for a taken jump, which goes to its operand byte: no delay slot, no interrupt, no trap entry
(10_state.md R15, R16; 43_jumps.md R113; 60_exceptions.md R144, R149; decisions D3, D21). -/
def Obligations.OnlyJumpsTransferControl : Prop :=
  ∀ (i : Instr) (s t : State), exec i s = .next t →
    (∀ aa, takenTarget s i = some aa → t.pc = aa) ∧ (takenTarget s i = none → PcPast i.length s t)

/-- What SAV stored is what a following LDM of the same address loads, into any register (20_memory.md R40; decision D22).
That it says so of a register nothing has written since reset too is the model's choice, log 15. -/
def Obligations.LoadAfterStore : Prop :=
  ∀ (r q : Reg) (aa : Byte) (s : State), ∃ u, followedBy (.sav r aa) (.ldm q aa) s = .next u ∧ u.rd q = s.rd r

/-- A store into the byte after a SAV is what the very next fetch reads: the next step runs the one-byte instruction the stored value spells
(R43; decisions D4 and D22).
That it says so of a register nothing has written since reset too is the model's choice, log 15. -/
def Obligations.StoreSeenByNextFetch : Prop :=
  ∀ (r : Reg) (s : State) (b0 b1 : Byte) (i : Instr), s.halted = false → encode (.sav r (nextAddr s.pc 2)) = [b0, b1] →
    s.mem.read s.pc = some b0 → s.mem.read (nextAddr s.pc 1) = some b1 → decode [s.rd r] = .instr i [] →
    ∃ t, step s = .next t ∧ t.pc = nextAddr s.pc 2 ∧ step t = exec i t

/-! The alternatives of the parameters (00_scope.md R4, 93_implementation_defined.md U13). -/

/-- The machine that faults at the top of the address space only ever stops earlier: each of its steps is the standard machine's or the fault
PcOverflow, and the latter only within two bytes of the top (R15, U6; decision D3). -/
def Obligations.FaultingPcOnlyStopsEarlier : Prop :=
  ∀ s : State, stepIn faultingPc s = step s ∨ (stepIn faultingPc s = .fault (.pcOverflow s.pc) ∧ 255 < s.pc.toNat + 2)

/-- The machine that refuses the 28 same-register forms is the standard machine on every other instruction (R66, U5; decision D12). -/
def Obligations.RefusingSameRegisterOnlyStopsEarlier : Prop :=
  ∀ s : State,
    (∀ i r, s.halted = false → fetch params s = .next i → i.registerPair = some (r, r) →
      stepIn refusingSameReg s = .refused (.sameRegister r)) ∧
    ((s.halted = true ∨ ∀ i r, fetch params s = .next i → i.registerPair ≠ some (r, r)) → stepIn refusingSameReg s = step s)

/-- One memory or two cannot be told apart by a run that fetches from the addresses `F` only and whose LDM and SAV stay out of `F`: `k` steps
of the two machines end in states that still differ in memory alone, or both stop for the same reason (20_memory.md R32; decision D4). -/
def Obligations.SplitMemoryIndistinguishable : Prop :=
  ∀ (F : Byte → Prop) (P : Memory) (s d : State) (k : Nat), CodeApart F P s d →
    (∀ j u, j < k → runSteps j s = .next u → FetchesWithin F u) →
    (∀ t, runSteps k s = .next t → ∃ u, runIn (splitMemory P) k d = .next u ∧ CodeApart F P t u) ∧
    (∀ f, runSteps k s = .fault f → runIn (splitMemory P) k d = .fault f) ∧
    ∀ q, runSteps k s = .refused q → runIn (splitMemory P) k d = .refused q

/-- Under the other order of SUB the result is the two's-complement negation of the standard one, and the flag is the same (41_arithmetic.md
R91; decision D9).
That it says so of a register nothing has written since reset too is the model's choice, log 15. -/
def Obligations.OtherSubOrderNegates : Prop :=
  ∀ (rs rd : Reg) (s : State), ∃ t u, exec (.sub rs rd) s = .next t ∧
    execIn reversedSub (.sub rs rd) s = .next u ∧
    ((u.rd rs).toNat + (t.rd rs).toNat) % 256 = 0 ∧ u.z = t.z ∧ OnlyRegister rs 0 t u

/-- Under the destination the field labels name, ADD, SUB, AND, OR and XOR write to D the value the standard machine writes to S, and the flag
is the same (90_conflicts.md C1; decisions D8 and D10, U13).
That it says so of a register nothing has written since reset too is the model's choice, log 15. -/
def Obligations.LabelledDestinationGetsSameValue : Prop :=
  ∀ (mk : Reg → Reg → Instr) (rs rd : Reg) (s : State), mk ∈ [Instr.add, Instr.sub, Instr.and, Instr.or, Instr.xor] →
    ∃ t u, exec (mk rs rd) s = .next t ∧
      execIn labelledDest (mk rs rd) s = .next u ∧
      u.rd rd = t.rd rs ∧ u.z = t.z ∧ OnlyRegister rd 1 s u

/-! The assembler's spelling. -/

/-- An assembly line reads back as the instruction it was printed from, with or without a comment (30_encoding.md R67). -/
def Obligations.AssemblyLineReadsBack : Prop :=
  ∀ (i : Instr) (comment : List Char),
    parseLine (printLine i) = .instr i ∧ parseLine (printLine i ++ ';' :: comment) = .instr i
end

