-- ==== Sys2Proof/Laws/Decode.lean ====
section
/-! SUPPORT. Sys2Proof/Laws/Decode.lean: what each field and constructor of an encoding decodes to. -/

namespace Sys2Proof

/-- A register's number names it (R10, R58). -/
theorem regOfField_regNumber (r : Reg) : regOfField (BitVec.ofNat 2 (regNumber r)) = r := by cases r <;> rfl

/-- `decode` on a list that begins with a whole instruction. -/
theorem decode_whole {b0 : Byte} {i : Instr} (h : decodeFirst b0 = .whole i) (rest : List Byte) : decode (b0 :: rest) = .instr i rest := by
  simp [decode, h]

/-- `decode` on a list that begins with a two-byte instruction. -/
theorem decode_opens {b0 : Byte} {o : OperandOp} (h : decodeFirst b0 = .opens o) (b1 : Byte) (rest : List Byte) :
    decode (b0 :: b1 :: rest) = .instr (o.withOperand b1) rest := by
  simp [decode, h]

/-- `decode` on a list that begins with a reserved byte. -/
theorem decode_illegal {b0 : Byte} (h : decodeFirst b0 = .illegal) (rest : List Byte) : decode (b0 :: rest) = .illegal b0 := by
  simp [decode, h]

/-- A decoded instruction came from its first byte alone, or from its first byte and the operand byte after it. -/
theorem decode_eq_instr {bs rest : List Byte} {i : Instr} (h : decode bs = .instr i rest) :
    (∃ b0, bs = b0 :: rest ∧ decodeFirst b0 = .whole i) ∨
    ∃ b0 o b1, bs = b0 :: b1 :: rest ∧ decodeFirst b0 = .opens o ∧ o.withOperand b1 = i := by
  cases bs with
  | nil => simp [decode] at h
  | cons b0 tail =>
    cases hd : decodeFirst b0 with
    | illegal => simp [decode, hd] at h
    | whole j =>
      simp only [decode, hd, Decoded.instr.injEq] at h
      exact .inl ⟨b0, by rw [h.2], by rw [hd, h.1]⟩
    | opens o =>
      cases tail with
      | nil => simp [decode, hd] at h
      | cons b1 tail' =>
        simp only [decode, hd, Decoded.instr.injEq] at h
        exact .inr ⟨b0, o, b1, by rw [h.2], hd, h.1⟩

end Sys2Proof
end

