-- ==== Sys2Proof/Laws/Memory.lean ====
section
/-! SUPPORT. Sys2Proof/Laws/Memory.lean: the laws of the memory operations: a read after a write, and the canonical form. -/

namespace Sys2Proof.Machine

@[simp] theorem Memory.read_nil (a : Byte) : Memory.read [] a = none := rfl

/-- A read of the address written gives the value written. -/
@[simp] theorem Memory.read_write_self (m : Memory) (a v : Byte) : (m.write a v).read a = some v := by
  induction m with
  | nil => simp [Memory.write, Memory.read]
  | cons p rest ih =>
    obtain ⟨k, w⟩ := p
    simp only [Memory.write]
    split
    · simp [Memory.read]
    · split
      · rename_i h; simp [Memory.read, h]
      · rename_i h; simp [Memory.read, h, ih]

/-- A write leaves every other address alone. -/
theorem Memory.read_write_ne (m : Memory) {a b : Byte} (v : Byte) (h : b ≠ a) : (m.write a v).read b = m.read b := by
  have hn : a.toNat ≠ b.toNat := fun e => h (BitVec.eq_of_toNat_eq e.symm)
  induction m with
  | nil => simp [Memory.write, Memory.read, hn]
  | cons p rest ih =>
    obtain ⟨k, w⟩ := p
    simp only [Memory.write]
    split
    · simp [Memory.read, hn]
    · split
      · rename_i hk; subst hk; simp [Memory.read, hn]
      · simp [Memory.read, ih]

theorem Memory.read_write (m : Memory) (a b v : Byte) : (m.write a v).read b = if b = a then some v else m.read b := by
  split
  · rename_i h; rw [h, Memory.read_write_self]
  · rename_i h; exact Memory.read_write_ne m v h

/-- A write keeps the addresses rising from any bound below the address written. -/
theorem Memory.risingFrom_write {m : Memory} {lo : Option Nat} (h : Memory.risingFrom lo m = true) (a v : Byte)
    (hlo : ∀ l, lo = some l → l < a.toNat) : Memory.risingFrom lo (m.write a v) = true := by
  have ha : a.toNat < 256 := a.isLt
  induction m generalizing lo with
  | nil => cases lo <;> simp_all [Memory.write, Memory.risingFrom]
  | cons p rest ih =>
    obtain ⟨k, w⟩ := p
    have hk : k < 256 ∧ Memory.risingFrom (some k) rest = true ∧ ∀ l, lo = some l → l < k := by
      cases lo <;> simp_all [Memory.risingFrom]
    obtain ⟨hk1, hk2, hk3⟩ := hk
    simp only [Memory.write]
    split
    · cases lo <;> simp_all [Memory.risingFrom]
    · split
      · cases lo <;> simp_all [Memory.risingFrom]
      · have hka : k < a.toNat := by omega
        have := ih (lo := some k) hk2 (fun l e => by cases e; exact hka)
        cases lo <;> simp_all [Memory.risingFrom]

/-- A write keeps the canonical form. -/
theorem Memory.wf_write {m : Memory} (h : m.wf = true) (a v : Byte) : (m.write a v).wf = true :=
  Memory.risingFrom_write h a v (fun _ e => by cases e)

/-- The host's image is in canonical form, whatever list of bytes it is given as. -/
theorem Memory.wf_ofImage (image : List (Byte × Byte)) : (Memory.ofImage image).wf = true := by
  induction image with
  | nil => rfl
  | cons p rest ih => exact Memory.wf_write ih p.1 p.2

/-- Addresses below the bound are not listed. -/
theorem Memory.read_of_risingFrom {m : Memory} {l : Nat} (h : Memory.risingFrom (some l) m = true) {a : Byte} (ha : a.toNat ≤ l) :
    m.read a = none := by
  induction m generalizing l with
  | nil => rfl
  | cons p rest ih =>
    obtain ⟨k, w⟩ := p
    simp only [Memory.risingFrom, Bool.and_eq_true, decide_eq_true_eq] at h
    have hk : k ≠ a.toNat := by omega
    simp only [Memory.read, if_neg hk]
    exact ih h.2 (by omega)

/-- Two rising lists of cells that read alike everywhere are equal. -/
theorem Memory.eq_of_risingFrom {m n : Memory} {lo : Option Nat} (hm : Memory.risingFrom lo m = true)
    (hn : Memory.risingFrom lo n = true) (h : ∀ a : Byte, m.read a = n.read a) : m = n := by
  induction m generalizing n lo with
  | nil =>
    cases n with
    | nil => rfl
    | cons q rest =>
      obtain ⟨k, w⟩ := q
      have hk : k < 256 := by cases lo <;> simp_all [Memory.risingFrom]
      have := h (BitVec.ofNat 8 k)
      simp [Memory.read, Nat.mod_eq_of_lt hk] at this
  | cons p rest ih =>
    obtain ⟨k, w⟩ := p
    have hk : k < 256 ∧ Memory.risingFrom (some k) rest = true := by cases lo <;> simp_all [Memory.risingFrom]
    cases n with
    | nil =>
      have := h (BitVec.ofNat 8 k)
      simp [Memory.read, Nat.mod_eq_of_lt hk.1] at this
    | cons q rest' =>
      obtain ⟨k', w'⟩ := q
      have hk' : k' < 256 ∧ Memory.risingFrom (some k') rest' = true := by cases lo <;> simp_all [Memory.risingFrom]
      have e1 := h (BitVec.ofNat 8 k)
      have e2 := h (BitVec.ofNat 8 k')
      simp only [Memory.read, BitVec.toNat_ofNat, Nat.reducePow, Nat.mod_eq_of_lt hk.1, Nat.mod_eq_of_lt hk'.1] at e1 e2
      have hkk : k = k' := by
        rcases Nat.lt_trichotomy k k' with hlt | heq | hgt
        · rw [if_pos trivial, if_neg (by omega), Memory.read_of_risingFrom hk'.2 (by simp [Nat.mod_eq_of_lt hk.1]; omega)] at e1
          cases e1
        · exact heq
        · rw [if_neg (by omega), if_pos trivial, Memory.read_of_risingFrom hk.2 (by simp [Nat.mod_eq_of_lt hk'.1]; omega)] at e2
          cases e2
      subst hkk
      simp only [if_true] at e1
      cases e1
      congr 1
      refine ih hk.2 hk'.2 fun a => ?_
      by_cases hak : k = a.toNat
      · rw [Memory.read_of_risingFrom hk.2 (by omega), Memory.read_of_risingFrom hk'.2 (by omega)]
      · have := h a
        simpa [Memory.read, hak] using this

/-- In canonical form, memories that read alike everywhere are equal data. -/
theorem Memory.eq_of_read {m n : Memory} (hm : m.wf = true) (hn : n.wf = true) (h : ∀ a : Byte, m.read a = n.read a) : m = n :=
  Memory.eq_of_risingFrom hm hn h

end Sys2Proof.Machine
end

