-- ==== Sys2Proof/Laws/State.lean ====
section
/-! SUPPORT. Sys2Proof/Laws/State.lean: what each update of the state does to each field, one lemma per field and update. -/

namespace Sys2Proof.Machine

variable (s : State) (r : Reg) (v a t : Byte) (c : Config) (op : ResultOp)

@[simp] theorem State.rd_wr_self : (s.wr r v).rd r = v := by cases r <;> rfl
theorem State.rd_wr (q : Reg) : (s.wr r v).rd q = if q = r then v else s.rd q := by
  cases r <;> cases q <;> rfl
theorem State.rd_wr_ne {q : Reg} (h : q ≠ r) : (s.wr r v).rd q = s.rd q := by rw [State.rd_wr, if_neg h]
@[simp] theorem State.wr_pc : (s.wr r v).pc = s.pc := by cases r <;> rfl
@[simp] theorem State.wr_z : (s.wr r v).z = s.z := by cases r <;> rfl
@[simp] theorem State.wr_halted : (s.wr r v).halted = s.halted := by cases r <;> rfl
@[simp] theorem State.wr_out : (s.wr r v).out = s.out := by cases r <;> rfl
@[simp] theorem State.wr_outs : (s.wr r v).outs = s.outs := by cases r <;> rfl
@[simp] theorem State.wr_mem : (s.wr r v).mem = s.mem := by cases r <;> rfl

@[simp] theorem jumpTo_pc : (jumpTo s t).pc = t := rfl
@[simp] theorem jumpTo_rd (q : Reg) : (jumpTo s t).rd q = s.rd q := by cases q <;> rfl
@[simp] theorem jumpTo_x : (jumpTo s t).x = s.x := rfl
@[simp] theorem jumpTo_z : (jumpTo s t).z = s.z := rfl
@[simp] theorem jumpTo_halted : (jumpTo s t).halted = s.halted := rfl
@[simp] theorem jumpTo_out : (jumpTo s t).out = s.out := rfl
@[simp] theorem jumpTo_outs : (jumpTo s t).outs = s.outs := rfl
@[simp] theorem jumpTo_mem : (jumpTo s t).mem = s.mem := rfl

@[simp] theorem State.display_out : (s.display v).out = v := rfl
@[simp] theorem State.display_outs : (s.display v).outs = s.outs ++ [v] := rfl
@[simp] theorem State.display_rd (q : Reg) : (s.display v).rd q = s.rd q := by cases q <;> rfl
@[simp] theorem State.display_x : (s.display v).x = s.x := rfl
@[simp] theorem State.display_pc : (s.display v).pc = s.pc := rfl
@[simp] theorem State.display_z : (s.display v).z = s.z := rfl
@[simp] theorem State.display_halted : (s.display v).halted = s.halted := rfl
@[simp] theorem State.display_mem : (s.display v).mem = s.mem := rfl

@[simp] theorem State.halt_halted : s.halt.halted = true := rfl
@[simp] theorem State.halt_rd (q : Reg) : s.halt.rd q = s.rd q := by cases q <;> rfl
@[simp] theorem State.halt_x : s.halt.x = s.x := rfl
@[simp] theorem State.halt_pc : s.halt.pc = s.pc := rfl
@[simp] theorem State.halt_z : s.halt.z = s.z := rfl
@[simp] theorem State.halt_out : s.halt.out = s.out := rfl
@[simp] theorem State.halt_outs : s.halt.outs = s.outs := rfl
@[simp] theorem State.halt_mem : s.halt.mem = s.mem := rfl

@[simp] theorem State.storeByte_mem : (s.storeByte c a v).mem = s.mem.write a v := by simp [State.storeByte, cellOf]
@[simp] theorem State.storeByte_rd (q : Reg) : (s.storeByte c a v).rd q = s.rd q := by cases q <;> rfl
@[simp] theorem State.storeByte_x : (s.storeByte c a v).x = s.x := rfl
@[simp] theorem State.storeByte_pc : (s.storeByte c a v).pc = s.pc := rfl
@[simp] theorem State.storeByte_z : (s.storeByte c a v).z = s.z := rfl
@[simp] theorem State.storeByte_halted : (s.storeByte c a v).halted = s.halted := rfl
@[simp] theorem State.storeByte_out : (s.storeByte c a v).out = s.out := rfl
@[simp] theorem State.storeByte_outs : (s.storeByte c a v).outs = s.outs := rfl

theorem setZ_z : (setZ c op v s).z = if writesZ c op then zeroFlag c.zRule v else s.z := by unfold setZ; split <;> rfl
@[simp] theorem setZ_x : (setZ c op v s).x = s.x := by unfold setZ; split <;> rfl
@[simp] theorem setZ_rd (q : Reg) : (setZ c op v s).rd q = s.rd q := by unfold setZ; split <;> cases q <;> rfl
@[simp] theorem setZ_pc : (setZ c op v s).pc = s.pc := by unfold setZ; split <;> rfl
@[simp] theorem setZ_halted : (setZ c op v s).halted = s.halted := by unfold setZ; split <;> rfl
@[simp] theorem setZ_out : (setZ c op v s).out = s.out := by unfold setZ; split <;> rfl
@[simp] theorem setZ_outs : (setZ c op v s).outs = s.outs := by unfold setZ; split <;> rfl
@[simp] theorem setZ_mem : (setZ c op v s).mem = s.mem := by unfold setZ; split <;> rfl

/-- Two states with the same registers, field by field, are equal when the other fields are. -/
theorem State.ext_rd {s t : State} (hx : ∀ r, s.rd r = t.rd r) (hpc : s.pc = t.pc) (hz : s.z = t.z) (hh : s.halted = t.halted)
    (ho : s.out = t.out) (hos : s.outs = t.outs) (hm : s.mem = t.mem) : s = t := by
  obtain ⟨⟨a, b, c, d⟩, pc, z, h, o, os, m⟩ := s
  obtain ⟨⟨a', b', c', d'⟩, pc', z', h', o', os', m'⟩ := t
  have hA := hx .A
  have hB := hx .B
  have hC := hx .C
  have hD := hx .D
  simp only [State.rd] at hA hB hC hD hpc hz hh ho hos hm
  subst hA hB hC hD hpc hz hh ho hos hm
  rfl

end Sys2Proof.Machine
end

