-- ==== Sys2Proof/Laws/Ops.lean ====
section
/-! SUPPORT. Sys2Proof/Laws/Ops.lean: one lemma for each shared operation that says what it can answer. -/

namespace Sys2Proof.Machine

/-! The standard parameters, field by field. -/

@[simp] theorem params_pcWrap : params.pcWrap = .wrap := rfl
@[simp] theorem params_memOrg : params.memOrg = .unified := rfl
@[simp] theorem params_arithDest : params.arithDest = .sField := rfl
@[simp] theorem params_logicDest : params.logicDest = .sField := rfl
@[simp] theorem params_subOrder : params.subOrder = .sMinusD := rfl
@[simp] theorem params_movDir : params.movDir = .sToD := rfl
@[simp] theorem params_sameReg : params.sameReg = .execute := rfl
@[simp] theorem params_outSrc : params.outSrc = .A := rfl
@[simp] theorem params_hltAdvance : params.hltAdvance = 1 := rfl
@[simp] theorem params_resetPc : params.resetPc = 0 := rfl
@[simp] theorem writesZ_add : writesZ params .add = true := rfl
@[simp] theorem writesZ_sub : writesZ params .sub = true := rfl
@[simp] theorem writesZ_inc : writesZ params .inc = true := rfl
@[simp] theorem writesZ_dec : writesZ params .dec = true := rfl
@[simp] theorem writesZ_and : writesZ params .and = true := rfl
@[simp] theorem writesZ_or : writesZ params .or = true := rfl
@[simp] theorem writesZ_xor : writesZ params .xor = true := rfl
@[simp] theorem writesZ_not : writesZ params .not = true := rfl
@[simp] theorem writesZ_cmp : writesZ params .cmp = true := rfl
@[simp] theorem writesZ_ldi : writesZ params .ldi = false := rfl
@[simp] theorem writesZ_ldm : writesZ params .ldm = false := rfl
@[simp] theorem writesZ_mov : writesZ params .mov = false := rfl

/-! Sequencing. -/

section
variable {α β : Type}

@[simp] theorem andThen_next (v : α) (k : α → Host.Outcome β Fault Refusal) : andThen (.next v) k = k v := rfl
@[simp] theorem andThen_fault (f : Fault) (k : α → Host.Outcome β Fault Refusal) : andThen (.fault f) k = .fault f := rfl
@[simp] theorem andThen_refused (r : Refusal) (k : α → Host.Outcome β Fault Refusal) : andThen (.refused r) k = .refused r := rfl
@[simp] theorem andThen_raise (f : Fault) (k : α → Host.Outcome β Fault Refusal) : andThen (raise f) k = .fault f := rfl

/-- A sequence goes on only if both parts do. -/
theorem andThen_eq_next {o : Host.Outcome α Fault Refusal} {k : α → Host.Outcome β Fault Refusal} {w : β} :
    andThen o k = .next w ↔ ∃ v, o = .next v ∧ k v = .next w := by
  cases o <;> simp [andThen]

/-- A sequence faults where its first part does, or where it goes on and its second part does. -/
theorem andThen_eq_fault {o : Host.Outcome α Fault Refusal} {k : α → Host.Outcome β Fault Refusal} {f : Fault} :
    andThen o k = .fault f ↔ o = .fault f ∨ ∃ v, o = .next v ∧ k v = .fault f := by
  cases o <;> simp [andThen]

/-- A sequence is refused where its first part is, or where it goes on and its second part is. -/
theorem andThen_eq_refused {o : Host.Outcome α Fault Refusal} {k : α → Host.Outcome β Fault Refusal} {r : Refusal} :
    andThen o k = .refused r ↔ o = .refused r ∨ ∃ v, o = .next v ∧ k v = .refused r := by
  cases o <;> simp [andThen]

end

/-! The program counter. -/

theorem nextAddr_toNat (pc : Byte) (n : Nat) : (nextAddr pc n).toNat = (pc.toNat + n) % 256 := by
  simp [nextAddr, BitVec.toNat_add]

/-- Two moves of the program counter are one. -/
theorem nextAddr_nextAddr (pc : Byte) (m n : Nat) : nextAddr (nextAddr pc m) n = nextAddr pc (m + n) := by
  apply BitVec.eq_of_toNat_eq
  simp only [nextAddr_toNat]
  omega

/-- Narrowing is the same for the one width the machine has. -/
theorem narrow_eq (w : Width) (n : Int) : narrow w n = BitVec.ofInt 8 n := rfl

@[simp] theorem valuesOf_eq (w : Width) : valuesOf w = 256 := rfl
@[simp] theorem cellOf_eq (m : MemSize) (a : Byte) : cellOf m a = a := rfl

/-- The narrowed end of an advance is `next(n)` (R15). -/
@[simp] theorem narrow_next (w : Width) (pc : Byte) (n : Nat) : narrow w (pc.toNat + n) = nextAddr pc n := by
  simp [narrow_eq, nextAddr, BitVec.ofInt_add]

/-- A narrowed sum is the sum of the bytes (R90). -/
@[simp] theorem narrow_sum (w : Width) (a b : Byte) : narrow w (exactSum a b) = a + b := by
  simp [narrow_eq, exactSum, BitVec.ofInt_add]

/-- A narrowed difference is the difference of the bytes, in the order asked for (R91). -/
@[simp] theorem narrow_difference (w : Width) (order : SubOrder) (a b : Byte) :
    narrow w (exactDifference order a b) = match order with | .sMinusD => a - b | .dMinusS => b - a := by
  cases order <;>
    simp only [narrow_eq, exactDifference, Int.sub_eq_add_neg, BitVec.ofInt_add, BitVec.ofInt_neg, BitVec.ofInt_natCast, BitVec.ofNat_toNat,
      BitVec.setWidth_eq, BitVec.sub_eq_add_neg]

/-- One more, narrowed (R92). -/
@[simp] theorem narrow_inc (w : Width) (a : Byte) : narrow w (a.toNat + 1) = a + 1 := narrow_next w a 1

/-- One less, narrowed (R93). -/
@[simp] theorem narrow_dec (w : Width) (a : Byte) : narrow w (a.toNat - 1) = a - 1 := narrow_difference w .sMinusD a 1

/-- Under wrapping, every address after the instruction's is `next(n)`. -/
theorem stepAddr_wrap {c : Config} (h : c.pcWrap = .wrap) (pc : Byte) (n : Nat) : stepAddr c pc n = .next (nextAddr pc n) := by
  simp [stepAddr, h]

/-- Under `PC_WRAP = fault`, it faults exactly where the program counter would pass 0xFF. -/
theorem stepAddr_fault {c : Config} (h : c.pcWrap = .fault) (pc : Byte) (n : Nat) :
    stepAddr c pc n = if 255 < pc.toNat + n then .fault (.pcOverflow pc) else .next (nextAddr pc n) := by
  simp only [stepAddr, h, narrow_next, valuesOf_eq, Nat.succ_le_iff]
  rfl

/-- Under wrapping, advancing always goes on, and only the program counter changes. -/
theorem advance_wrap {c : Config} (h : c.pcWrap = .wrap) (n : Nat) (s : State) :
    advance c n s = .next (jumpTo s (nextAddr s.pc n)) := by
  simp [advance, stepAddr_wrap h]

/-- Under `PC_WRAP = fault`, advancing faults exactly when the program counter would pass 0xFF. -/
theorem advance_fault {c : Config} (h : c.pcWrap = .fault) (n : Nat) (s : State) :
    advance c n s = if 255 < s.pc.toNat + n then .fault (.pcOverflow s.pc) else .next (jumpTo s (nextAddr s.pc n)) := by
  rw [advance, stepAddr_fault h]
  split <;> rfl

@[simp] theorem advance_params (n : Nat) (s : State) : advance params n s = .next (jumpTo s (nextAddr s.pc n)) :=
  advance_wrap rfl n s

@[simp] theorem stepAddr_params (pc : Byte) (n : Nat) : stepAddr params pc n = .next (nextAddr pc n) :=
  stepAddr_wrap rfl pc n

/-! Results and flags. -/

theorem zeroFlag_eq_true {rule : ZRule} {r : Byte} : zeroFlag rule r = true ↔ r = 0 := by simp [zeroFlag]

/-- A difference is zero exactly when its operands are equal (R91, R135). -/
theorem sub_eq_zero_iff_eq (a b : Byte) : a - b = 0 ↔ a = b := by
  constructor
  · intro h
    bv_omega
  · rintro rfl
    simp

/-- What a result-writing instruction leaves under any configuration whose program counter wraps. -/
theorem finish_wrap {c : Config} (h : c.pcWrap = .wrap) (op : ResultOp) (dest : Reg) (r : Byte) (s : State) (n : Nat) :
    finish c op dest r s n = .next (jumpTo (setZ c op r (s.wr dest r)) (nextAddr s.pc n)) := by
  simp [finish, advance_wrap h]

/-- What a result-writing instruction of the standard machine leaves: the register, the flag if it is a writer, the program counter. -/
@[simp] theorem finish_params (op : ResultOp) (dest : Reg) (r : Byte) (s : State) (n : Nat) :
    finish params op dest r s n = .next (jumpTo (setZ params op r (s.wr dest r)) (nextAddr s.pc n)) :=
  finish_wrap rfl op dest r s n

@[simp] theorem finishFlag_params (op : ResultOp) (r : Byte) (s : State) (n : Nat) :
    finishFlag params op r s n = .next (jumpTo (setZ params op r s) (nextAddr s.pc n)) := by
  simp [finishFlag]

/-! Memory accesses. -/

/-- A read of a store goes on exactly when the byte has been written. -/
theorem readByte_eq_next {m : Memory} {a v : Byte} : readByte m a = .next v ↔ m.read a = some v := by
  unfold readByte; split <;> simp_all [raise]

/-- A read of a store faults exactly when nothing has written the byte. -/
theorem readByte_eq_fault {m : Memory} {a : Byte} {f : Fault} : readByte m a = .fault f ↔ m.read a = none ∧ f = .unspecifiedRead a := by
  cases h : m.read a <;> simp [readByte, h, raise, eq_comm]

theorem readByte_some {m : Memory} {a v : Byte} (h : m.read a = some v) : readByte m a = .next v := readByte_eq_next.2 h

theorem readByte_none {m : Memory} {a : Byte} (h : m.read a = none) : readByte m a = .fault (.unspecifiedRead a) :=
  readByte_eq_fault.2 ⟨h, rfl⟩

/-- A read of a store is never refused. -/
theorem readByte_ne_refused (m : Memory) (a : Byte) (r : Refusal) : readByte m a ≠ .refused r := by
  unfold readByte; split <;> simp [raise]

@[simp] theorem loadByte_eq (c : Config) (s : State) (a : Byte) : loadByte c s a = readByte s.mem a := rfl

@[simp] theorem fetchByte_params (s : State) (a : Byte) : fetchByte params s a = readByte s.mem a := rfl

/-! Operand forms. -/

@[simp] theorem resultReg_sField (rs rd : Reg) : resultReg .sField rs rd = rs := rfl
@[simp] theorem resultReg_dField (rs rd : Reg) : resultReg .dField rs rd = rd := rfl
@[simp] theorem movSource_sToD (rs rd : Reg) : movSource .sToD rs rd = rs := rfl
@[simp] theorem movDest_sToD (rs rd : Reg) : movDest .sToD rs rd = rd := rfl
@[simp] theorem movSource_dToS (rs rd : Reg) : movSource .dToS rs rd = rd := rfl
@[simp] theorem movDest_dToS (rs rd : Reg) : movDest .dToS rs rd = rs := rfl
@[simp] theorem immediate_eq (vv : Byte) : immediate vv = vv := rfl
@[simp] theorem effectiveAddress_eq (aa : Byte) : effectiveAddress aa = aa := rfl
@[simp] theorem jumpTarget_eq (aa : Byte) : jumpTarget aa = aa := rfl

end Sys2Proof.Machine
end

