-- ==== Sys2Proof/Laws/Exec.lean ====
section
/-! SUPPORT. Sys2Proof/Laws/Exec.lean: one lemma per instruction that gives its outcome on the standard machine as updates of the state. -/

namespace Sys2Proof.Machine

variable (rs rd r : Reg) (vv aa : Byte) (s : State)

/-! The arithmetic instructions under any configuration, with their results as bytes. -/

section
variable (c : Config)

theorem execAddIn_eq : execAddIn c rs rd s = finish c .add (resultReg c.arithDest rs rd) (s.rd rs + s.rd rd) s 1 := by simp [execAddIn]

theorem execSubIn_eq : execSubIn c rs rd s =
    finish c .sub (resultReg c.arithDest rs rd) (match c.subOrder with | .sMinusD => s.rd rs - s.rd rd | .dMinusS => s.rd rd - s.rd rs) s 1 := by
  cases h : c.subOrder <;> simp [execSubIn, h]

theorem execIncIn_eq : execIncIn c r s = finish c .inc r (s.rd r + 1) s 1 := by simp [execIncIn]

theorem execDecIn_eq : execDecIn c r s = finish c .dec r (s.rd r - 1) s 1 := by simp [execDecIn]

theorem execCmpIn_eq : execCmpIn c rs rd s = finishFlag c .cmp (s.rd rs - s.rd rd) s 1 := by simp [execCmpIn]

end

/-! The standard machine. -/

theorem execNop_eq : execNop s = .next (jumpTo s (nextAddr s.pc 1)) := by simp [execNop, execNopIn]

theorem execOut_eq : execOut s = .next (jumpTo (s.display (s.rd .A)) (nextAddr s.pc 1)) := by simp [execOut, execOutIn]

theorem execHlt_eq : execHlt s = .next (jumpTo s.halt (nextAddr s.pc 1)) := by simp [execHlt, execHltIn]

theorem execAdd_eq : execAdd rs rd s =
    .next (jumpTo (setZ params .add (s.rd rs + s.rd rd) (s.wr rs (s.rd rs + s.rd rd))) (nextAddr s.pc 1)) := by
  simp [execAdd, execAddIn_eq]

theorem execSub_eq : execSub rs rd s =
    .next (jumpTo (setZ params .sub (s.rd rs - s.rd rd) (s.wr rs (s.rd rs - s.rd rd))) (nextAddr s.pc 1)) := by
  simp [execSub, execSubIn_eq]

theorem execInc_eq : execInc r s = .next (jumpTo (setZ params .inc (s.rd r + 1) (s.wr r (s.rd r + 1))) (nextAddr s.pc 1)) := by
  simp [execInc, execIncIn_eq]

theorem execDec_eq : execDec r s = .next (jumpTo (setZ params .dec (s.rd r - 1) (s.wr r (s.rd r - 1))) (nextAddr s.pc 1)) := by
  simp [execDec, execDecIn_eq]

theorem execLdi_eq : execLdi r vv s = .next (jumpTo (s.wr r vv) (nextAddr s.pc 2)) := by simp [execLdi, execLdiIn, setZ]

theorem execLdm_eq : execLdm r aa s =
    andThen (readByte s.mem aa) fun v => .next (jumpTo (s.wr r v) (nextAddr s.pc 2)) := by
  simp [execLdm, execLdmIn, setZ]

theorem execSav_eq : execSav r aa s = .next (jumpTo (s.storeByte params aa (s.rd r)) (nextAddr s.pc 2)) := by simp [execSav, execSavIn]

theorem execJmp_eq : execJmp aa s = .next (jumpTo s aa) := rfl

theorem execJmz_eq : execJmz aa s = .next (jumpTo s (if s.z then aa else nextAddr s.pc 2)) := by
  simp only [execJmz, execJmzIn, branch]; split <;> simp

theorem execJnz_eq : execJnz aa s = .next (jumpTo s (if s.z then nextAddr s.pc 2 else aa)) := by
  simp only [execJnz, execJnzIn, branch]; cases s.z <;> simp

theorem execMov_eq : execMov rs rd s = .next (jumpTo (s.wr rd (s.rd rs)) (nextAddr s.pc 1)) := by simp [execMov, execMovIn, setZ]

theorem execAnd_eq : execAnd rs rd s =
    .next (jumpTo (setZ params .and (s.rd rs &&& s.rd rd) (s.wr rs (s.rd rs &&& s.rd rd))) (nextAddr s.pc 1)) := by
  simp [execAnd, execAndIn]

theorem execOr_eq : execOr rs rd s =
    .next (jumpTo (setZ params .or (s.rd rs ||| s.rd rd) (s.wr rs (s.rd rs ||| s.rd rd))) (nextAddr s.pc 1)) := by
  simp [execOr, execOrIn]

theorem execXor_eq : execXor rs rd s =
    .next (jumpTo (setZ params .xor (s.rd rs ^^^ s.rd rd) (s.wr rs (s.rd rs ^^^ s.rd rd))) (nextAddr s.pc 1)) := by
  simp [execXor, execXorIn]

theorem execNot_eq : execNot r s = .next (jumpTo (setZ params .not (~~~(s.rd r)) (s.wr r (~~~(s.rd r)))) (nextAddr s.pc 1)) := by
  simp [execNot, execNotIn]

theorem execCmp_eq : execCmp rs rd s = .next (jumpTo (setZ params .cmp (s.rd rs - s.rd rd) s) (nextAddr s.pc 1)) := by
  simp [execCmp, execCmpIn_eq]

/-- Every instruction but LDM goes on from every state. -/
theorem exec_total (i : Instr) (h : ∀ r aa, i ≠ .ldm r aa) : ∃ t, exec i s = .next t := by
  cases i <;> simp_all [exec, execNop_eq, execOut_eq, execHlt_eq, execAdd_eq, execSub_eq, execInc_eq, execDec_eq, execLdi_eq,
    execSav_eq, execJmp_eq, execJmz_eq, execJnz_eq, execMov_eq, execAnd_eq, execOr_eq, execXor_eq, execNot_eq, execCmp_eq]

/-- No instruction is refused. -/
theorem exec_ne_refused (i : Instr) (q : Refusal) : exec i s ≠ .refused q := by
  by_cases h : ∃ r aa, i = .ldm r aa
  · obtain ⟨r, aa, rfl⟩ := h
    intro e
    simp only [exec, execLdm_eq, andThen_eq_refused, readByte_ne_refused, false_or] at e
    obtain ⟨v, -, hv⟩ := e
    cases hv
  · obtain ⟨t, ht⟩ := exec_total s i (fun r aa e => h ⟨r, aa, e⟩)
    rw [ht]
    intro e
    cases e

end Sys2Proof.Machine
end

