-- ==== Sys2Proof/Laws/PerInstr.lean ====
section
/-! SUPPORT. Sys2Proof/Laws/PerInstr.lean: a statement about every instruction as syntax, one lemma per constructor. -/

namespace Sys2Proof.Laws.EncodedLength

/-- An instruction's encoding has as many bytes as the length rule gives it, one or two (R50, R64). -/
def Statement (i : Instr) : Prop := (encode i).length = i.length ∧ (i.length = 1 ∨ i.length = 2)

variable (rs rd r : Reg) (v : Byte)

theorem nop : Statement .nop := ⟨rfl, .inl rfl⟩
theorem out : Statement .out := ⟨rfl, .inl rfl⟩
theorem hlt : Statement .hlt := ⟨rfl, .inl rfl⟩
theorem add : Statement (.add rs rd) := ⟨rfl, .inl rfl⟩
theorem sub : Statement (.sub rs rd) := ⟨rfl, .inl rfl⟩
theorem inc : Statement (.inc r) := ⟨rfl, .inl rfl⟩
theorem dec : Statement (.dec r) := ⟨rfl, .inl rfl⟩
theorem ldi : Statement (.ldi r v) := ⟨rfl, .inr rfl⟩
theorem ldm : Statement (.ldm r v) := ⟨rfl, .inr rfl⟩
theorem sav : Statement (.sav r v) := ⟨rfl, .inr rfl⟩
theorem jmp : Statement (.jmp v) := ⟨rfl, .inr rfl⟩
theorem jmz : Statement (.jmz v) := ⟨rfl, .inr rfl⟩
theorem jnz : Statement (.jnz v) := ⟨rfl, .inr rfl⟩
theorem mov : Statement (.mov rs rd) := ⟨rfl, .inl rfl⟩
theorem and : Statement (.and rs rd) := ⟨rfl, .inl rfl⟩
theorem or : Statement (.or rs rd) := ⟨rfl, .inl rfl⟩
theorem xor : Statement (.xor rs rd) := ⟨rfl, .inl rfl⟩
theorem not : Statement (.not r) := ⟨rfl, .inl rfl⟩
theorem cmp : Statement (.cmp rs rd) := ⟨rfl, .inl rfl⟩

end Sys2Proof.Laws.EncodedLength
end

