-- ==== Sys2Proof/Laws/Step.lean ====
section
/-! SUPPORT. Sys2Proof/Laws/Step.lean: what a fetch and a step of the standard machine can answer. -/

namespace Sys2Proof.Machine

@[simp] theorem operandOffset_eq (order : InstrOrder) : operandOffset order = 1 := rfl

@[simp] theorem illegalFirstByte_eq (policy : IllegalPolicy) (a b : Byte) :
    illegalFirstByte policy a b = .fault (.illegalInstruction a b) := rfl

@[simp] theorem checkForm_params (i : Instr) : checkForm params i = .next i := rfl

/-- The fetch under any configuration, written out. -/
theorem fetch_eq (c : Config) (s : State) : fetch c s =
    andThen (fetchByte c s s.pc) fun b0 =>
      match decodeFirst b0 with
      | .illegal => .fault (.illegalInstruction s.pc b0)
      | .whole i => checkForm c i
      | .opens o => andThen (stepAddr c s.pc 1) fun a1 => andThen (fetchByte c s a1) fun b1 => checkForm c (o.withOperand b1) := rfl

/-- The fetch of the standard machine, written out. -/
theorem fetch_params (s : State) : fetch params s =
    andThen (readByte s.mem s.pc) fun b0 =>
      match decodeFirst b0 with
      | .illegal => .fault (.illegalInstruction s.pc b0)
      | .whole i => .next i
      | .opens o => andThen (readByte s.mem (nextAddr s.pc 1)) fun b1 => .next (o.withOperand b1) := by
  simp only [fetch_eq, fetchByte_params, stepAddr_params, andThen_next, checkForm_params]

/-- A fetch that goes on has read the whole of one instruction. -/
theorem fetch_eq_next {s : State} {i : Instr} : fetch params s = .next i ↔
    ∃ b0, s.mem.read s.pc = some b0 ∧
      (decodeFirst b0 = .whole i ∨
       ∃ o b1, decodeFirst b0 = .opens o ∧ s.mem.read (nextAddr s.pc 1) = some b1 ∧ o.withOperand b1 = i) := by
  rw [fetch_params, andThen_eq_next]
  simp only [readByte_eq_next]
  constructor
  · rintro ⟨b0, h0, h⟩
    refine ⟨b0, h0, ?_⟩
    cases hd : decodeFirst b0 with
    | illegal => rw [hd] at h; cases h
    | whole j => rw [hd] at h; cases h; exact .inl rfl
    | opens o =>
      rw [hd] at h
      simp only [andThen_eq_next, readByte_eq_next] at h
      obtain ⟨b1, h1, h2⟩ := h
      cases h2
      exact .inr ⟨o, b1, rfl, h1, rfl⟩
  · rintro ⟨b0, h0, h⟩
    refine ⟨b0, h0, ?_⟩
    rcases h with h | ⟨o, b1, ho, h1, rfl⟩
    · rw [h]
    · rw [ho]
      simp only [readByte_some h1, andThen_next]

/-- A fetch is never refused on the standard machine. -/
theorem fetch_ne_refused (s : State) (q : Refusal) : fetch params s ≠ .refused q := by
  rw [fetch_params]
  intro e
  rcases andThen_eq_refused.1 e with h | ⟨b0, -, h⟩
  · exact readByte_ne_refused _ _ _ h
  · split at h
    · cases h
    · cases h
    · rcases andThen_eq_refused.1 h with h' | ⟨b1, -, h'⟩
      · exact readByte_ne_refused _ _ _ h'
      · cases h'

/-- A step that goes on was a running machine's, and executed the instruction it fetched. -/
theorem step_eq_next {s t : State} : step s = .next t ↔ s.halted = false ∧ ∃ i, fetch params s = .next i ∧ exec i s = .next t := by
  unfold step
  cases s.halted <;> simp [andThen_eq_next]

/-- A halted machine has no step. -/
theorem step_of_halted {s : State} (h : s.halted = true) : step s = .refused .halted := by simp [step, h]

/-- A running machine fetches and executes. -/
theorem step_of_running {s : State} (h : s.halted = false) : step s = andThen (fetch params s) fun i => exec i s := by
  simp [step, h]

/-- Only a halted machine's step is refused. -/
theorem step_eq_refused {s : State} {q : Refusal} : step s = .refused q ↔ s.halted = true ∧ q = .halted := by
  cases h : s.halted with
  | true => simp [step_of_halted h, eq_comm]
  | false =>
    simp only [step_of_running h, andThen_eq_refused, fetch_ne_refused, exec_ne_refused, and_false, exists_false, or_self,
      Bool.false_eq_true, false_and]

/-- After `withFetchWord` the machine is running, its program counter is where it was, and the two bytes are the ones fetched. -/
theorem withFetchWord_fetch (s : State) (nbits w : Nat) :
    (s.withFetchWord nbits w).halted = false ∧ (s.withFetchWord nbits w).pc = s.pc ∧
    (s.withFetchWord nbits w).mem.read s.pc = some (tableBytes nbits w).1 ∧
    (s.withFetchWord nbits w).mem.read (nextAddr s.pc 1) = some (tableBytes nbits w).2 := by
  refine ⟨rfl, rfl, Memory.read_write_self _ _ _, ?_⟩
  have hne : nextAddr s.pc 1 ≠ s.pc := by
    intro e
    have := congrArg BitVec.toNat e
    rw [nextAddr_toNat] at this
    have := s.pc.isLt
    omega
  exact (Memory.read_write_ne _ _ hne).trans (Memory.read_write_self _ _ _)

end Sys2Proof.Machine
end

