-- ==== Sys2Proof/Laws/Variants.lean ====
section
/-! SUPPORT. Sys2Proof/Laws/Variants.lean: the machine under the standard parameters is the standard machine. -/

namespace Sys2Proof.Machine

/-- `execIn` under the standard parameters is `exec`. -/
@[simp] theorem execIn_params (i : Instr) (s : State) : execIn params i s = exec i s := by cases i <;> rfl

/-- `stepIn` under the standard parameters is `step`. -/
@[simp] theorem stepIn_params (s : State) : stepIn params s = step s := by simp [stepIn, step]

end Sys2Proof.Machine
end

