-- ==== Sys2Proof/Laws/Run.lean ====
section
/-! SUPPORT. Sys2Proof/Laws/Run.lean: runs, and what a whole instruction of the standard machine can do to memory. -/

namespace Sys2Proof.Machine

@[simp] theorem runSteps_zero (s : State) : runSteps 0 s = .next s := rfl

theorem runSteps_succ (k : Nat) (s : State) : runSteps (k + 1) s = andThen (step s) (runSteps k) := rfl

/-- A run in two parts. -/
theorem runSteps_add (j k : Nat) (s : State) : runSteps (j + k) s = andThen (runSteps j s) (runSteps k) := by
  induction j generalizing s with
  | zero => simp
  | succ j ih =>
    rw [Nat.add_right_comm, runSteps_succ, runSteps_succ]
    cases step s <;> simp [ih]

/-- One step more of a host's run. -/
theorem hostRun_succ (M : Host.Core) (k : Nat) (s : M.State) :
    (∀ t, M.step s = .next t → M.run (k + 1) s = M.run k t) ∧ (∀ f, M.step s = .fault f → M.run (k + 1) s = .fault f) ∧
    ∀ q, M.step s = .refused q → M.run (k + 1) s = .refused q := by
  refine ⟨fun t h => ?_, fun f h => ?_, fun q h => ?_⟩ <;> simp [Host.Core.run, h]

/-- The host's run of the core is this run. -/
theorem core_run (k : Nat) (s : State) : Sys2Proof.core.run k s = runSteps k s := by
  induction k generalizing s with
  | zero => rfl
  | succ k ih =>
    obtain ⟨hn, hf, hr⟩ := hostRun_succ Sys2Proof.core k s
    unfold runSteps
    cases h : step s with
    | next t => exact (hn t h).trans (ih t)
    | fault f => exact hf f h
    | refused q => exact hr q h

/-- A run under the standard parameters is a run of the standard machine. -/
@[simp] theorem runIn_params (k : Nat) (s : State) : runIn params k s = runSteps k s := by
  induction k generalizing s with
  | zero => rfl
  | succ k ih =>
    simp only [runIn, runSteps, stepIn_params]
    cases step s <;> simp [ih]

end Sys2Proof.Machine
end

