-- ==== Sys2Proof/Tests/Slice0.lean ====
section
/-! SUPPORT. Sys2Proof/Tests/Slice0.lean: tests whose expected results come from spec/ (the bit patterns of 30_encoding.md, the listing and the
derived vectors of 95_test_vectors.md), and for each obligation with hypotheses a witness that meets them. -/

namespace Sys2Proof.Tests

open Sys2Proof.Machine Sys2Proof.Claims

/-- The next state of an outcome, if it has one. -/
def after (o : Host.Outcome State Fault Refusal) : Option State :=
  match o with
  | .next t => some t
  | .fault _ => none
  | .refused _ => none

/-- The fault of an outcome, if it is one. -/
def faultOf (o : Host.Outcome State Fault Refusal) : Option Fault :=
  match o with
  | .next _ => none
  | .fault f => some f
  | .refused _ => none

/-- The refusal of an outcome, if it is one. -/
def refusalOf (o : Host.Outcome State Fault Refusal) : Option Refusal :=
  match o with
  | .next _ => none
  | .fault _ => none
  | .refused q => some q

/-- A running state with the given registers, program counter, flag and memory. -/
def st (a b c d pc : Byte) (z : Bool) (mem : Memory) : State := ⟨⟨a, b, c, d⟩, pc, z, false, 0, [], mem⟩

/-- A running state with the given registers and the bytes of one instruction at 0x20. -/
def at20 (a b c d : Byte) (z : Bool) (b0 b1 : Byte) : State := st a b c d 0x20 z [(0x20, b0), (0x21, b1)]

/-! WellFormed: the same-register check refuses each of the seven shapes with S = D, and admits them under the standard policy (R66). -/

theorem test_refuse_add : (Instr.add .A .A).wellFormed .refuse = false := by decide
theorem test_refuse_sub : (Instr.sub .B .B).wellFormed .refuse = false := by decide
theorem test_refuse_mov : (Instr.mov .C .C).wellFormed .refuse = false := by decide
theorem test_refuse_and : (Instr.and .D .D).wellFormed .refuse = false := by decide
theorem test_refuse_or : (Instr.or .A .A).wellFormed .refuse = false := by decide
theorem test_refuse_xor : (Instr.xor .B .B).wellFormed .refuse = false := by decide
theorem test_refuse_cmp : (Instr.cmp .C .C).wellFormed .refuse = false := by decide
theorem test_admit_different : (Instr.add .A .B).wellFormed .refuse = true ∧ (Instr.not .A).wellFormed .refuse = true := by decide
theorem test_admit_execute : (Instr.add .A .A).wellFormed params.sameReg = true := by decide
theorem test_refusing_machine_stops :
    refusalOf (stepIn refusingSameReg (at20 1 2 3 4 false 0b10100001 0)) = some (.sameRegister .C) := by decide

/-! Decoding: a word of every constructor, from the bits of the source's listing (95_test_vectors.md section 1), with its operand byte. -/

theorem test_decode_nop : decode [0b00000000] = .instr .nop [] := by decide
theorem test_decode_out : decode [0b00010000] = .instr .out [] := by decide
theorem test_decode_hlt : decode [0b00100000] = .instr .hlt [] := by decide
theorem test_decode_add : decode [0b01100001] = .instr (.add .B .C) [] := by decide
theorem test_decode_sub : decode [0b10000010] = .instr (.sub .C .A) [] := by decide
theorem test_decode_inc : decode [0b11100011] = .instr (.inc .D) [] := by decide
theorem test_decode_dec : decode [0b01110011] = .instr (.dec .B) [] := by decide
theorem test_decode_ldi : decode [0b10000100, 0b00101010] = .instr (.ldi .C 0x2A) [] := by decide
theorem test_decode_ldm : decode [0b01010100, 0b00010001] = .instr (.ldm .B 0x11) [] := by decide
theorem test_decode_sav : decode [0b11100100, 0b10000000] = .instr (.sav .D 0x80) [] := by decide
theorem test_decode_jmp : decode [0b00000101, 0b00001101] = .instr (.jmp 0x0D) [] := by decide
theorem test_decode_jmz : decode [0b00010101, 0b00001011] = .instr (.jmz 0x0B) [] := by decide
theorem test_decode_jnz : decode [0b00100101, 0b00000100] = .instr (.jnz 0x04) [] := by decide
theorem test_decode_mov : decode [0b10000110] = .instr (.mov .C .A) [] := by decide
theorem test_decode_and : decode [0b00010111] = .instr (.and .A .B) [] := by decide
theorem test_decode_or : decode [0b01101000] = .instr (.or .B .C) [] := by decide
theorem test_decode_xor : decode [0b11001001] = .instr (.xor .D .A) [] := by decide
theorem test_decode_not : decode [0b10001010] = .instr (.not .C) [] := by decide
theorem test_decode_cmp : decode [0b11101011] = .instr (.cmp .D .C) [] := by decide
theorem test_decode_same_register : decode [0b11110010] = .instr (.sub .D .D) [] := by decide
theorem test_decode_leaves_rest : decode [0b00000000, 0b00100000] = .instr .nop [0b00100000] := by decide

/-- Two of the 28 forms of R66, and a form of two registers that is none of them. -/
theorem test_same_register_forms : 0xA7 ∈ sameRegisterForms ∧ 0xFB ∈ sameRegisterForms ∧ 0x11 ∉ sameRegisterForms := by decide

/-- The reserved bytes of 95_test_vectors.md section 2.8, one or two of each class of R62. -/
theorem test_decode_reserved : ∀ b ∈ [0x30, 0x40, 0x03, 0x13, 0x34, 0x35, 0x45, 0x1A, 0xAA, 0x0C, 0xFF], decode [b, 0x00] = .illegal b := by
  decide
theorem test_decode_no_operand : decode [0b00000101] = .noOperand 0b00000101 := by decide
theorem test_decode_no_byte : decode [] = .noByte := by decide

/-! The host's numbering: the first byte in bits 7..0, the operand byte in bits 15..8. -/

theorem test_table_word_short : decodeTableWord 8 0x24 = some (.sav .A 0x00) := by decide
theorem test_table_word_long : decodeTableWord 16 0x8024 = some (.sav .A 0x80) := by decide
theorem test_table_word_reserved : decodeTableWord 8 0x0C = none := by decide
theorem test_first_instruction_after_reset :
    (after (step (State.reset.withFetchWord 16 0x2A84))).map (fun t => (t.rd .C, t.pc)) = some (0x2A, 0x02) := by decide

/-! One step each: vectors of 95_test_vectors.md sections 2.1 to 2.7. -/

theorem test_nop_wraps : (after (step (st 1 2 3 4 0xFF false [(0xFF, 0x00)]))).map (fun t => (t.x, t.z, t.pc)) =
    some (⟨1, 2, 3, 4⟩, false, 0x00) := by decide
theorem test_out_shows_a : (after (step (at20 0x2A 9 9 9 false 0x10 0))).map (fun t => (t.out, t.outs, t.pc)) =
    some (0x2A, [0x2A], 0x21) := by decide
theorem test_hlt_stops : (after (step (at20 1 2 3 4 true 0x20 0))).map (fun t => (t.halted, t.pc, t.x)) =
    some (true, 0x21, ⟨1, 2, 3, 4⟩) := by decide
theorem test_add_wraps : (after (step (at20 0xFF 0x01 0 0 false 0x11 0))).map (fun t => (t.x, t.z)) =
    some (⟨0x00, 0x01, 0, 0⟩, true) := by decide
theorem test_add_same_register : (after (step (at20 0 0x81 0 0 false 0x51 0))).map (fun t => (t.x.b, t.z)) = some (0x02, false) := by
  decide
theorem test_sub_borrows : (after (step (at20 0x05 0x07 0 0 true 0x12 0))).map (fun t => (t.x.a, t.x.b, t.z)) =
    some (0xFE, 0x07, false) := by decide
theorem test_sub_other_order : (after (step (at20 0x05 0x07 0 0 true 0x42 0))).map (fun t => (t.x.a, t.x.b, t.z)) =
    some (0x05, 0x02, false) := by decide
theorem test_inc_wraps : (after (step (at20 0xFF 0 0 0 false 0x23 0))).map (fun t => (t.x.a, t.z)) = some (0x00, true) := by decide
theorem test_dec_wraps : (after (step (at20 0x00 0 0 0 true 0x33 0))).map (fun t => (t.x.a, t.z)) = some (0xFF, false) := by decide
theorem test_ldi_keeps_flag : (after (step (at20 0x55 0 0 0 false 0x04 0x00))).map (fun t => (t.x.a, t.z, t.pc)) =
    some (0x00, false, 0x22) := by decide
theorem test_ldi_at_top : (after (step (st 0 0 0 0 0xFF false [(0x00, 0x7E), (0xFF, 0x44)]))).map (fun t => (t.x.b, t.pc)) =
    some (0x7E, 0x01) := by decide
theorem test_ldm_own_operand : (after (step (at20 0 0 0 0 false 0x94 0x21))).map (fun t => (t.x.c, t.pc)) = some (0x21, 0x22) := by decide
theorem test_ldm_unwritten : faultOf (step (at20 0 0 0 0 false 0x14 0x90)) = some (.unspecifiedRead 0x90) := by decide
theorem test_sav_first_address : (after (step (at20 0 0 0xEE 0 false 0xA4 0x00))).map (·.mem) =
    some [(0x00, 0xEE), (0x20, 0xA4), (0x21, 0x00)] := by decide
theorem test_sav_own_operand : (after (step (at20 0 0x99 0 0 false 0x64 0x21))).map (fun t => (t.mem, t.pc)) =
    some ([(0x20, 0x64), (0x21, 0x99)], 0x22) := by decide
theorem test_jmp_last_address : (after (step (at20 0 0 0 0 true 0x05 0xFF))).map (·.pc) = some 0xFF := by decide
theorem test_jmz_not_taken : (after (step (st 0 0 0 0 0x05 false [(0x05, 0x15), (0x06, 0x0B)]))).map (·.pc) = some 0x07 := by decide
theorem test_jmz_at_top : (after (step (st 0 0 0 0 0xFF true [(0x00, 0x80), (0xFF, 0x15)]))).map (·.pc) = some 0x80 := by decide
theorem test_jnz_taken : (after (step (st 0 0 0 0 0x07 false [(0x07, 0x25), (0x08, 0x04)]))).map (·.pc) = some 0x04 := by decide
theorem test_jnz_falls_to_zero : (after (step (st 0 0 0 0 0xFE true [(0xFE, 0x25), (0xFF, 0x80)]))).map (·.pc) = some 0x00 := by decide
theorem test_mov_writes_second : (after (step (at20 0x5A 0x11 0 0 true 0x16 0))).map (fun t => (t.x.a, t.x.b, t.z)) =
    some (0x5A, 0x5A, true) := by decide
theorem test_and_clears : (after (step (at20 0x6C 0x01 0 0 false 0x17 0))).map (fun t => (t.x.a, t.z)) = some (0x00, true) := by decide
theorem test_or_joins : (after (step (at20 0 0xF0 0x0C 0 true 0x68 0))).map (fun t => (t.x.b, t.x.c, t.z)) =
    some (0xFC, 0x0C, false) := by decide
theorem test_xor_complements : (after (step (at20 0xFF 0 0 0xAA true 0xC9 0))).map (fun t => (t.x.d, t.z)) = some (0x55, false) := by
  decide
theorem test_not_inverts : (after (step (at20 0 0 0x0F 0 true 0x8A 0))).map (fun t => (t.x.c, t.z)) = some (0xF0, false) := by decide
theorem test_cmp_unequal : (after (step (at20 0 0 0x80 0x7F true 0xEB 0))).map (fun t => (t.x.c, t.x.d, t.z)) =
    some (0x80, 0x7F, false) := by decide
theorem test_reserved_faults : faultOf (step (at20 1 2 3 4 false 0x40 0)) = some (.illegalInstruction 0x20 0x40) := by decide
theorem test_pc_overflow : faultOf (stepIn faultingPc (st 0 0 0 0 0xFF false [(0xFF, 0x00)])) = some (.pcOverflow 0xFF) := by decide
theorem test_split_fetch : (after (stepIn (splitMemory [(0x20, 0x0A)]) (at20 0x0F 0 0 0 false 0x20 0))).map (fun t => (t.x.a, t.halted)) =
    some (0xF0, false) := by decide

/-! Assembly: examples of R67. -/

theorem test_asm_sub : parseLine ['S', 'U', 'B', ' ', 'C', ' ', 'A'] = .instr (.sub .C .A) := by decide
theorem test_asm_ldi : parseLine ['L', 'D', 'I', ' ', 'C', ' ', '0', 'x', '2', 'A', ' ', ';', 'x'] = .instr (.ldi .C 0x2A) := by decide
theorem test_asm_comment_only : parseLine [' ', ';', 'A', 'D', 'D'] = .blank := by decide
theorem test_asm_comma : parseLine ['A', 'D', 'D', ' ', 'A', ',', 'B'] = .malformed := by decide

/-! Witnesses: for each obligation with hypotheses, states and operands that meet them together. -/

/-- A running state with HLT at the last address. -/
def hltAtTop : State := st 1 2 3 4 0xFF false [(0xFF, 0x20)]

/-- A running state with LDI B 0x7E across the top of the address space. -/
def ldiAtTop : State := st 0 0 0 0 0xFF false [(0x00, 0x7E), (0xFF, 0x44)]

/-- A running state with a jump to itself at the last address. -/
def loopAtTop : State := st 0 0 0 0 0xFF false [(0x00, 0xFF), (0xFF, 0x05)]

theorem witness_EncodeUndoesDecode : decode [0xFB, 0x01] = .instr (.cmp .D .D) [0x01] := by decide

theorem witness_ShapesWithoutOperandByte : (0b01 : BitVec 2) ≠ 0b00 ∧ (0b11 : BitVec 2) ≠ 0b00 := by decide

theorem witness_ShapesWithOperandByte : (0b01 : BitVec 2) ≠ 0b00 ∧ (0b11 : BitVec 2) ≠ 0b00 := by decide

theorem witness_LengthFromFirstByte : decode [0xCA] = .instr (.not .D) [] ∧ decode [0xE4, 0xFF] = .instr (.sav .D 0xFF) [] := by decide

theorem witness_FetchReadsOnlyItsBytes : ∃ s t : State, s ≠ t ∧ t.pc = s.pc ∧ t.mem.read s.pc = s.mem.read s.pc ∧
    t.mem.read (nextAddr s.pc 1) = s.mem.read (nextAddr s.pc 1) :=
  ⟨ldiAtTop, st 9 9 9 9 0xFF true [(0x00, 0x7E), (0x01, 0x00), (0xFF, 0x44)], by decide⟩

theorem witness_StepRunsDecodedInstruction_one : hltAtTop.halted = false ∧ hltAtTop.mem.read hltAtTop.pc = some 0x20 ∧
    decode [0x20] = .instr .hlt [] := by decide

theorem witness_StepRunsDecodedInstruction_two : ldiAtTop.halted = false ∧ ldiAtTop.mem.read ldiAtTop.pc = some 0x44 ∧
    ldiAtTop.mem.read (nextAddr ldiAtTop.pc 1) = some 0x7E ∧ decode [0x44, 0x7E] = .instr (.ldi .B 0x7E) [] := by decide

theorem witness_StepOnlyRunsWhatIsThere : ∃ s t, step s = .next t := ⟨ldiAtTop, _, rfl⟩

theorem witness_OperandFetchWrapsAtTop : ldiAtTop.halted = false ∧ ldiAtTop.pc = 0xFF ∧ encode (.ldi .B 0x7E) = [0x44, 0x7E] ∧
    ldiAtTop.mem.read 0xFF = some 0x44 ∧ ldiAtTop.mem.read 0x00 = some 0x7E ∧
    (after (exec (.ldi .B 0x7E) ldiAtTop)).isSome = true ∧ takenTarget ldiAtTop (.ldi .B 0x7E) = none := by decide

theorem witness_FetchChecksInOrder_halted : ({ hltAtTop with halted := true } : State).halted = true := by decide

theorem witness_FetchChecksInOrder_unwritten : State.reset.halted = false ∧ State.reset.mem.read State.reset.pc = none := by decide

theorem witness_FetchChecksInOrder_reserved : (st 0 0 0 0 0xFF false [(0xFF, 0xFF)]).halted = false ∧
    (st 0 0 0 0 0xFF false [(0xFF, 0xFF)]).mem.read 0xFF = some 0xFF ∧ (0xFF : Byte).toNat ∈ reservedBytes := by decide

theorem witness_FetchChecksInOrder_operand : (st 0 0 0 0 0xFF false [(0xFF, 0x05)]).halted = false ∧
    (st 0 0 0 0 0xFF false [(0xFF, 0x05)]).mem.read 0xFF = some 0x05 ∧
    (st 0 0 0 0 0xFF false [(0xFF, 0x05)]).mem.read (nextAddr 0xFF 1) = none := by decide

theorem witness_twoByte : twoByte 0x05 ∧ twoByte 0xE4 ∧ ¬ twoByte 0x45 ∧ ¬ twoByte 0x11 := by unfold twoByte; decide

theorem witness_OnlyTheseEventsStop_first : step State.reset = .fault (.unspecifiedRead 0x00) := rfl

theorem witness_OnlyTheseEventsStop_operand : step (st 0 0 0 0 0xFF false [(0xFF, 0x05)]) = .fault (.unspecifiedRead 0x00) := rfl

theorem witness_OnlyTheseEventsStop_ldm : step (at20 0 0 0 0 false 0x14 0x90) = .fault (.unspecifiedRead 0x90) := rfl

theorem witness_StepKeepsInvariant : ∃ s t : State, s.Inv ∧ step s = .next t :=
  ⟨ldiAtTop, _, ⟨by decide, fun _ h => by cases h⟩, rfl⟩

theorem witness_ExactlyOneEnding_halts : hltAtTop.halted = false ∧ ∃ t, HaltsAfter 1 hltAtTop t := ⟨rfl, _, rfl, rfl⟩

theorem witness_ExactlyOneEnding_faults : State.reset.halted = false ∧ Faulted State.reset := ⟨rfl, 1, _, rfl⟩

theorem witness_LdmLoadsByte : ldiAtTop.mem.read 0xFF = some 0x44 := by decide

theorem witness_OnlyLdmOfUnwrittenByteStops : State.reset.mem.read 0xFF = none ∧
    exec (.ldm .D 0xFF) State.reset = .fault (.unspecifiedRead 0xFF) := ⟨by decide, rfl⟩

theorem witness_JmpGoesToOperand : loopAtTop.halted = false ∧ loopAtTop.mem.read loopAtTop.pc = some 0x05 ∧
    loopAtTop.mem.read (nextAddr loopAtTop.pc 1) = some loopAtTop.pc ∧ nextAddr loopAtTop.pc 2 = 0x01 := by decide

/-- A running state with a conditional jump across the top of the address space. -/
def branchAtTop (z : Bool) (b0 : Byte) : State := st 0 0 0 0 0xFF z [(0x00, 0x80), (0xFF, b0)]

theorem witness_JmzJumpsIfSet : ∀ z : Bool, (branchAtTop z 0x15).z = z ∧ (branchAtTop z 0x15).halted = false ∧
    (branchAtTop z 0x15).mem.read 0xFF = some 0x15 ∧ ∃ t, step (branchAtTop z 0x15) = .next t :=
  fun z => ⟨rfl, rfl, rfl, by cases z <;> exact ⟨_, rfl⟩⟩

theorem witness_JmzJumpsIfSet_after : Instr.xor ∈ [Instr.cmp, Instr.sub, Instr.xor] := by simp

theorem witness_JnzJumpsIfNotSet : ∀ z : Bool, (branchAtTop z 0x25).z = z ∧ (branchAtTop z 0x25).halted = false ∧
    (branchAtTop z 0x25).mem.read 0xFF = some 0x25 ∧ ∃ t, step (branchAtTop z 0x25) = .next t :=
  fun z => ⟨rfl, rfl, rfl, by cases z <;> exact ⟨_, rfl⟩⟩

theorem witness_OnlyTabledRegisterWritten : ∃ t, exec (.mov .A .D) hltAtTop = .next t ∧ writtenReg (.mov .A .D) ≠ some .A :=
  ⟨_, rfl, by decide⟩

theorem witness_OnlyZWritersWriteFlag_kept : ∃ t, exec (.ldi .A 0) hltAtTop = .next t ∧ zWriter (.ldi .A 0) = false := ⟨_, rfl, rfl⟩

theorem witness_OnlyZWritersWriteFlag_written : ∃ t, exec (.dec .A) hltAtTop = .next t ∧ zWriter (.dec .A) = true ∧
    writtenReg (.dec .A) = some .A := ⟨_, rfl, rfl, rfl⟩

theorem witness_OnlyZWritersWriteFlag_cmp : ∃ t, exec (.cmp .A .A) hltAtTop = .next t := ⟨_, rfl⟩

theorem witness_OnlyConditionalJumpsReadFlag : ∃ t, exec .nop hltAtTop = .next t ∧ ∀ aa : Byte, Instr.nop ≠ .jmz aa ∧ Instr.nop ≠ .jnz aa :=
  ⟨_, rfl, fun _ => ⟨Instr.noConfusion, Instr.noConfusion⟩⟩

theorem witness_OnlySavWritesMemory_kept : ∃ t, exec (.sav .A 0xFF) hltAtTop = .next t ∧ ∀ r, Instr.sav .A 0xFF ≠ .sav r 0x00 :=
  ⟨_, rfl, fun r => by cases r <;> decide⟩

theorem witness_OnlySavWritesMemory_stored : ∃ t, exec (.sav .D 0x00) hltAtTop = .next t := ⟨_, rfl⟩

theorem witness_OnlyOutChangesDisplay : (∃ t, exec .out hltAtTop = .next t) ∧ ∃ t, exec .hlt hltAtTop = .next t ∧ Instr.hlt ≠ .out :=
  ⟨⟨_, rfl⟩, _, rfl, by decide⟩

theorem witness_DisplayIsNeverRead : (∃ t, step hltAtTop = .next t) ∧ (∃ f, step State.reset = .fault f) ∧
    ∃ q, step { hltAtTop with halted := true } = .refused q := ⟨⟨_, rfl⟩, ⟨_, rfl⟩, _, rfl⟩

theorem witness_OnlyHltHalts : (∃ t, step hltAtTop = .next t ∧ t.halted = true) ∧ ∃ t, step loopAtTop = .next t ∧ t.halted = false :=
  ⟨⟨_, rfl, rfl⟩, _, rfl, rfl⟩

theorem witness_OnlyJumpsTransferControl : (∃ t, exec (.jnz 0xFF) hltAtTop = .next t ∧ takenTarget hltAtTop (.jnz 0xFF) = some 0xFF) ∧
    ∃ t, exec (.jmz 0xFF) hltAtTop = .next t ∧ takenTarget hltAtTop (.jmz 0xFF) = none := ⟨⟨_, rfl, rfl⟩, _, rfl, rfl⟩

/-- A running state with SAV A into the byte after it, across the top of the address space; A holds the byte of HLT. -/
def savNext : State := st 0x20 0 0 0 0xFF false [(0x00, 0x01), (0xFF, 0x24)]

theorem witness_StoreSeenByNextFetch : savNext.halted = false ∧ encode (.sav .A (nextAddr savNext.pc 2)) = [0x24, 0x01] ∧
    savNext.mem.read savNext.pc = some 0x24 ∧ savNext.mem.read (nextAddr savNext.pc 1) = some 0x01 ∧
    decode [savNext.rd .A] = .instr .hlt [] := by decide

/-- A running state with ADD A A, one of the 28 same-register forms. -/
def addSame : State := at20 1 2 3 4 false 0x01 0

theorem witness_RefusingSameRegisterOnlyStopsEarlier_refused : addSame.halted = false ∧ fetch params addSame = .next (.add .A .A) ∧
    (Instr.add .A .A).registerPair = some (.A, .A) := ⟨rfl, rfl, rfl⟩

theorem witness_RefusingSameRegisterOnlyStopsEarlier_same :
    ∀ i r, fetch params hltAtTop = .next i → i.registerPair ≠ some (r, r) := by
  intro i r h
  cases (show Host.Outcome.next .hlt = Host.Outcome.next i from h)
  simp [Instr.registerPair]

/-- SAV A 0x80 at address 0x20, in one memory. -/
def savUnified : State := at20 7 0 0 0 false 0x24 0x80

/-- The same instruction in a program store of its own, with a data memory that holds nothing. -/
def savSplit : State := st 7 0 0 0 0x20 false []

theorem witness_SplitMemoryIndistinguishable :
    CodeApart (fun a => a = 0x20 ∨ a = 0x21) [(0x20, 0x24), (0x21, 0x80)] savUnified savSplit ∧
    ∀ j u, j < 1 → runSteps j savUnified = .next u → FetchesWithin (fun a => a = 0x20 ∨ a = 0x21) u := by
  refine ⟨⟨fun _ => rfl, rfl, rfl, rfl, ⟨rfl, rfl⟩, ?_, ?_⟩, ?_⟩
  · rintro a (rfl | rfl) <;> rfl
  · intro a h
    have h1 : ¬ 0x20 = a.toNat := fun e => h (.inl (BitVec.eq_of_toNat_eq e.symm))
    have h2 : ¬ 0x21 = a.toNat := fun e => h (.inr (BitVec.eq_of_toNat_eq e.symm))
    simp [savSplit, savUnified, at20, st, Memory.read, h1, h2]
  · intro j u hj h
    obtain rfl : j = 0 := by omega
    cases h
    refine ⟨.inl rfl, fun _ _ _ => .inr rfl, fun i a hf ha => ?_⟩
    cases (show Host.Outcome.next (.sav .A 0x80) = Host.Outcome.next i from hf)
    cases ha
    decide

theorem witness_LabelledDestinationGetsSameValue : Instr.xor ∈ [Instr.add, Instr.sub, Instr.and, Instr.or, Instr.xor] := by simp

end Sys2Proof.Tests
end

section
/-! The encoding, field by field: the three fields of a first byte built from its bits (R50), the shapes of R52 and R54 to R57, and the
length rule of R64. -/

open Sys2Proof.Claims

namespace Sys2Proof

/-! A first byte and its fields. -/

@[simp] theorem hiField_firstByte (hi mid : BitVec 2) (lo : BitVec 4) : hiField (firstByte hi mid lo) = hi := by
  unfold hiField firstByte
  rw [BitVec.extractLsb'_append_eq_of_le (by decide)]
  exact BitVec.extractLsb'_append_eq_left

@[simp] theorem midField_firstByte (hi mid : BitVec 2) (lo : BitVec 4) : midField (firstByte hi mid lo) = mid := by
  unfold midField firstByte
  rw [BitVec.extractLsb'_append_eq_of_le (by decide)]
  exact BitVec.extractLsb'_append_eq_right

@[simp] theorem opNibble_firstByte (hi mid : BitVec 2) (lo : BitVec 4) : opNibble (firstByte hi mid lo) = lo :=
  BitVec.extractLsb'_append_eq_right

/-- The opcode nibble as the arithmetic of the length rule reads it. -/
theorem opNibble_toNat (b : Byte) : (opNibble b).toNat = b.toNat % 16 := by
  simp [opNibble]

@[simp] theorem regOfField_regBits (r : Reg) : regOfField (regBits r) = r := by cases r <;> rfl

@[simp] theorem toNat_regBits (r : Reg) : (regBits r).toNat = regNumber r := by cases r <;> rfl

/-- The fields of a first byte weigh 64, 16 and 1 (R50). -/
theorem toNat_firstByte (hi mid : BitVec 2) (lo : BitVec 4) :
    (firstByte hi mid lo).toNat = 64 * hi.toNat + (16 * mid.toNat + lo.toNat) := by
  rw [firstByte, BitVec.toNat_append, BitVec.toNat_append, ← Nat.shiftLeft_add_eq_or_of_lt mid.isLt,
    ← Nat.shiftLeft_add_eq_or_of_lt lo.isLt, Nat.shiftLeft_eq, Nat.shiftLeft_eq]
  omega

/-- A first byte that begins with a register field is `64*r + n`, `n` being the value of its other two fields (R54, R55, R57). -/
theorem toNat_firstByte_regBits (r : Reg) {mid : BitVec 2} {lo : BitVec 4} {n : Nat} (h : 16 * mid.toNat + lo.toNat = n) :
    (firstByte (regBits r) mid lo).toNat = 64 * regNumber r + n := by
  rw [toNat_firstByte, toNat_regBits, h]

/-! The shapes, each as the table of its type field. -/

/-- SYS (R52). -/
theorem decodeFirst_sysShape (mid : BitVec 2) : decodeFirst (firstByte 0b00 mid 0b0000) =
    if mid = 0b00 then .whole .nop else if mid = 0b01 then .whole .out else if mid = 0b10 then .whole .hlt else .illegal := by
  simp [decodeFirst]

/-- RT (R54). -/
theorem decodeFirst_rtShape (r : Reg) (mid : BitVec 2) : decodeFirst (firstByte (regBits r) mid 0b0011) =
    if mid = 0b10 then .whole (.inc r) else if mid = 0b11 then .whole (.dec r) else .illegal := by
  simp [decodeFirst]

/-- RTB (R55). -/
theorem decodeFirst_rtbShape (r : Reg) (mid : BitVec 2) : decodeFirst (firstByte (regBits r) mid 0b0100) =
    if mid = 0b00 then .opens (.ldi r) else if mid = 0b01 then .opens (.ldm r) else if mid = 0b10 then .opens (.sav r)
    else .illegal := by
  simp [decodeFirst]

/-- JB (R56). -/
theorem decodeFirst_jbShape (hi mid : BitVec 2) : decodeFirst (firstByte hi mid 0b0101) =
    if hi = 0b00 then
      if mid = 0b00 then .opens .jmp else if mid = 0b01 then .opens .jmz else if mid = 0b10 then .opens .jnz else .illegal
    else .illegal := by
  simp [decodeFirst]

/-- R1 (R57). -/
theorem decodeFirst_r1Shape (r : Reg) (mid : BitVec 2) : decodeFirst (firstByte (regBits r) mid 0b1010) =
    if mid = 0b00 then .whole (.not r) else .illegal := by
  simp [decodeFirst]

/-! The length rule. -/

/-- A first byte that is a whole instruction is not in an arm 0100 or 0101 of the decoder, and every instruction of the other arms is one
byte long (R61, R64). -/
theorem decodeFirst_whole_length {b : Byte} {i : Instr} (h : decodeFirst b = .whole i) :
    i.length = 1 ∧ ¬ (b.toNat % 16 = 4 ∨ b.toNat % 16 = 5) := by
  rw [← opNibble_toNat]
  simp only [decodeFirst] at h
  repeat' split at h
  all_goals cases h
  all_goals exact ⟨rfl, by omega⟩

/-- A first byte that wants an operand byte is in the arm 0100 (RTB) or 0101 (JB) of the decoder (R61, R64). -/
theorem decodeFirst_opens_nibble {b : Byte} {o : OperandOp} (h : decodeFirst b = .opens o) :
    b.toNat % 16 = 4 ∨ b.toNat % 16 = 5 := by
  rw [← opNibble_toNat]
  simp only [decodeFirst] at h
  repeat' split at h
  all_goals cases h
  all_goals omega

@[simp] theorem OperandOp.length_withOperand (o : OperandOp) (b1 : Byte) : (o.withOperand b1).length = 2 := by cases o <;> rfl

theorem Instr.length_eq_two_iff (i : Instr) : i.length = 2 ↔
    (∃ r v, i = .ldi r v) ∨ (∃ r a, i = .ldm r a) ∨ (∃ r a, i = .sav r a) ∨ (∃ a, i = .jmp a) ∨ (∃ a, i = .jmz a) ∨ ∃ a, i = .jnz a := by
  cases i <;> simp [Instr.length]

/-- Decoding consumes as many bytes as its instruction is long. -/
theorem decode_consumes_length {bs rest : List Byte} {i : Instr} (h : decode bs = .instr i rest) :
    bs.length = rest.length + i.length := by
  rcases decode_eq_instr h with ⟨b0, rfl, hd⟩ | ⟨b0, o, b1, rfl, -, rfl⟩
  · simp [(decodeFirst_whole_length hd).1]
  · simp

/-- The length of a decoded instruction is read from its opcode nibble. -/
theorem decode_length_eq_ite {b0 : Byte} {bs rest : List Byte} {i : Instr} (h : decode (b0 :: bs) = .instr i rest) :
    i.length = if b0.toNat % 16 = 4 ∨ b0.toNat % 16 = 5 then 2 else 1 := by
  rcases decode_eq_instr h with ⟨b, hb, hd⟩ | ⟨b, o, b1, hb, hd, rfl⟩
  · cases hb
    obtain ⟨hl, hn⟩ := decodeFirst_whole_length hd
    rw [hl, if_neg hn]
  · cases hb
    rw [if_pos (decodeFirst_opens_nibble hd), OperandOp.length_withOperand]

/-- Settles O9: the instruction's own length is what decoding consumes, what the nibble says, and 2 for the six instructions. -/
theorem lengthFromFirstByte : Obligations.LengthFromFirstByte := by
  intro b0 bs rest i h
  have hlen := decode_length_eq_ite h
  refine ⟨hlen ▸ decode_consumes_length h, ?_⟩
  rw [← Instr.length_eq_two_iff, hlen]
  split <;> simp [*]

/-- Settles O4, from the tables of the shapes SYS, RT and R1. -/
theorem shapesWithoutOperandByte : Obligations.ShapesWithoutOperandByte := by
  intro rest
  refine ⟨⟨decode_whole (decodeFirst_sysShape 0b00) rest, rfl⟩, ⟨decode_whole (decodeFirst_sysShape 0b01) rest, rfl⟩,
    ⟨decode_whole (decodeFirst_sysShape 0b10) rest, rfl⟩, ⟨decode_illegal (decodeFirst_sysShape 0b11) rest, rfl⟩, fun r => ?_⟩
  exact ⟨⟨decode_whole (decodeFirst_rtShape r 0b10) rest, toNat_firstByte_regBits r rfl⟩,
    ⟨decode_whole (decodeFirst_rtShape r 0b11) rest, toNat_firstByte_regBits r rfl⟩,
    decode_illegal (decodeFirst_rtShape r 0b00) rest, decode_illegal (decodeFirst_rtShape r 0b01) rest,
    ⟨decode_whole (decodeFirst_r1Shape r 0b00) rest, toNat_firstByte_regBits r rfl⟩,
    fun mid hmid => decode_illegal ((decodeFirst_r1Shape r mid).trans (if_neg hmid)) rest⟩

/-- Settles O5, from the tables of the shapes RTB and JB. -/
theorem shapesWithOperandByte : Obligations.ShapesWithOperandByte := by
  intro b1 rest
  refine ⟨fun r => ?_, ?_⟩
  · exact ⟨⟨decode_opens (decodeFirst_rtbShape r 0b00) b1 rest, toNat_firstByte_regBits r rfl⟩,
      ⟨decode_opens (decodeFirst_rtbShape r 0b01) b1 rest, toNat_firstByte_regBits r rfl⟩,
      ⟨decode_opens (decodeFirst_rtbShape r 0b10) b1 rest, toNat_firstByte_regBits r rfl⟩,
      decode_illegal (decodeFirst_rtbShape r 0b11) (b1 :: rest)⟩
  · exact ⟨⟨decode_opens (decodeFirst_jbShape 0b00 0b00) b1 rest, rfl⟩, ⟨decode_opens (decodeFirst_jbShape 0b00 0b01) b1 rest, rfl⟩,
      ⟨decode_opens (decodeFirst_jbShape 0b00 0b10) b1 rest, rfl⟩, ⟨decode_illegal (decodeFirst_jbShape 0b00 0b11) (b1 :: rest), rfl⟩,
      fun hi mid hhi => decode_illegal ((decodeFirst_jbShape hi mid).trans (if_neg hhi)) (b1 :: rest)⟩

end Sys2Proof
end

section
/-! JMP: its first byte, its step and the frame of a jump (R110), and that a step which leaves the state as it was never ends. -/

namespace Sys2Proof

/-- The first byte of JMP, in the table of its shape JB (R56). -/
theorem decodeFirst_jmpByte : decodeFirst 0x05 = .opens .jmp := decodeFirst_jbShape 0b00 0b00

namespace Machine

theorem exec_jmp (aa : Byte) (s : State) : exec (.jmp aa) s = .next (jumpTo s aa) := execJmp_eq aa s

/-- Nothing but the program counter differs after a jump. -/
theorem jumpTo_frame (s : State) (a : Byte) :
    SameRegs s (jumpTo s a) ∧ (jumpTo s a).z = s.z ∧ (jumpTo s a).halted = s.halted ∧ SameDisplay s (jumpTo s a) ∧
    SameMemory s (jumpTo s a) :=
  ⟨jumpTo_rd s a, jumpTo_z s a, jumpTo_halted s a, ⟨jumpTo_out s a, jumpTo_outs s a⟩, fun _ => rfl⟩

/-- Going to `next(n)` moves the program counter on by `n` bytes (R15). -/
theorem pcPast_jumpTo_nextAddr (n : Nat) (s : State) : PcPast n s (jumpTo s (nextAddr s.pc n)) := nextAddr_toNat s.pc n

/-- A running machine whose program counter addresses a JMP steps to the target. -/
theorem step_jmp {s : State} {aa : Byte} (hrun : s.halted = false) (h0 : s.mem.read s.pc = some 0x05)
    (h1 : s.mem.read (nextAddr s.pc 1) = some aa) : step s = .next (jumpTo s aa) := by
  have hfetch : fetch params s = .next (.jmp aa) := fetch_eq_next.2 ⟨0x05, h0, .inr ⟨.jmp, aa, decodeFirst_jmpByte, h1, rfl⟩⟩
  exact step_eq_next.2 ⟨hrun, .jmp aa, hfetch, exec_jmp aa s⟩

/-- A jump to where the program counter already is leaves the whole state as it was. -/
theorem jumpTo_pc_self (s : State) : jumpTo s s.pc = s := rfl

theorem runSteps_of_step_self {s : State} (h : step s = .next s) (k : Nat) : runSteps k s = .next s := by
  induction k with
  | zero => exact runSteps_zero s
  | succ k ih => rw [runSteps_succ, h, andThen_next, ih]

/-- A running state that steps to itself never ends (R167 case 3). -/
theorem endless_of_step_self {s : State} (hrun : s.halted = false) (h : step s = .next s) : Endless s :=
  fun k => ⟨s, runSteps_of_step_self h k, hrun⟩

/-- Settles O31: the next state is the jump itself, for either flag, and a JMP to itself steps to the state it started in. -/
theorem jmpGoesToOperand : Obligations.JmpGoesToOperand := by
  refine ⟨fun aa => ⟨rfl, decode_opens decodeFirst_jmpByte aa []⟩, fun aa s => ?_, fun s hrun h0 h1 => ?_⟩
  · obtain ⟨hregs, hz, hhalted, hdisplay, hmem⟩ := jumpTo_frame s aa
    refine ⟨jumpTo s aa, exec_jmp aa s, jumpTo_pc s aa, hregs, hz, hhalted, hdisplay, hmem, fun b => ?_, ?_⟩
    · exact ⟨jumpTo { s with z := b } aa, exec_jmp aa _, rfl, rfl⟩
    · rintro rfl
      exact pcPast_jumpTo_nextAddr 2 s
  · have hself : step s = .next s := by rw [step_jmp hrun h0 h1, jumpTo_pc_self]
    exact endless_of_step_self hrun hself

end Machine
end Sys2Proof
end

section
/-! The encoder and the decoder, field by field: each first byte is built from its fields (R50), so that what the encoder writes (R70) is
what the decoder reads (R61), in both directions. -/

open Sys2Proof.Claims

namespace Sys2Proof

/-! The encoder's bytes, as fields. -/

theorem pairByte_eq_firstByte (rs rd : Reg) (lo : BitVec 4) : pairByte rs rd lo.toNat = firstByte (regBits rs) (regBits rd) lo := by
  rw [pairByte, ← toNat_regBits rs, ← toNat_regBits rd, Nat.add_assoc, ← toNat_firstByte, BitVec.ofNat_toNat, BitVec.setWidth_eq]

theorem regByte_eq_firstByte (r : Reg) (mid : BitVec 2) (lo : BitVec 4) :
    regByte r (16 * mid.toNat + lo.toNat) = firstByte (regBits r) mid lo := by
  rw [regByte, ← toNat_regBits r, ← toNat_firstByte, BitVec.ofNat_toNat, BitVec.setWidth_eq]

/-- The two-register instruction of an opcode nibble (R53). -/
def pairInstr : Nat → Option (Reg → Reg → Instr)
  | 0x1 => some .add
  | 0x2 => some .sub
  | 0x6 => some .mov
  | 0x7 => some .and
  | 0x8 => some .or
  | 0x9 => some .xor
  | 0xB => some .cmp
  | _ => none

/-- The nibbles of the shape RR. -/
def pairNibbles : List Nat := [0x1, 0x2, 0x6, 0x7, 0x8, 0x9, 0xB]

theorem pairNibbles_lt {n : Nat} (h : n ∈ pairNibbles) : n < 16 := by
  revert n
  decide

theorem mem_pairNibbles_iff {n : Nat} : n ∈ pairNibbles ↔ ∃ mk, pairInstr n = some mk := by
  unfold pairInstr
  split <;> simp_all [pairNibbles]

theorem registerPair_eq_some_iff {i : Instr} {rs rd : Reg} :
    i.registerPair = some (rs, rd) ↔ ∃ n mk, pairInstr n = some mk ∧ i = mk rs rd := by
  constructor
  · intro h
    cases i with
    | add => cases h; exact ⟨0x1, _, rfl, rfl⟩
    | sub => cases h; exact ⟨0x2, _, rfl, rfl⟩
    | mov => cases h; exact ⟨0x6, _, rfl, rfl⟩
    | and => cases h; exact ⟨0x7, _, rfl, rfl⟩
    | or => cases h; exact ⟨0x8, _, rfl, rfl⟩
    | xor => cases h; exact ⟨0x9, _, rfl, rfl⟩
    | cmp => cases h; exact ⟨0xB, _, rfl, rfl⟩
    | _ => cases h
  · rintro ⟨n, mk, h, rfl⟩
    unfold pairInstr at h
    split at h
    all_goals cases h
    all_goals rfl

/-- RR (R53). -/
theorem decodeFirst_rrShape {lo : BitVec 4} {mk : Reg → Reg → Instr} (rs rd : Reg) (h : pairInstr lo.toNat = some mk) :
    decodeFirst (firstByte (regBits rs) (regBits rd) lo) = .whole (mk rs rd) := by
  unfold pairInstr at h
  split at h
  all_goals cases h
  all_goals simp_all [decodeFirst]

theorem decodeFirst_pairByte {n : Nat} {mk : Reg → Reg → Instr} (rs rd : Reg) (h : pairInstr n = some mk) :
    decodeFirst (pairByte rs rd n) = .whole (mk rs rd) := by
  have hn : (BitVec.ofNat 4 n).toNat = n := Nat.mod_eq_of_lt (pairNibbles_lt (mem_pairNibbles_iff.2 ⟨mk, h⟩))
  rw [← hn] at h ⊢
  rw [pairByte_eq_firstByte, decodeFirst_rrShape rs rd h]

theorem decodeFirst_regByte {r : Reg} {mid : BitVec 2} {lo : BitVec 4} {n : Nat} {x : FirstByte}
    (h : decodeFirst (firstByte (regBits r) mid lo) = x) (hn : 16 * mid.toNat + lo.toNat = n) : decodeFirst (regByte r n) = x := by
  rw [← hn, regByte_eq_firstByte, h]

/-! From the encoder to the decoder. -/

/-- The encoding is one byte that spells the whole instruction, or a byte that opens it and its operand byte. -/
inductive EncodedAs (i : Instr) : List Byte → Prop
  | whole {b0 : Byte} (h : decodeFirst b0 = .whole i) : EncodedAs i [b0]
  | opens {b0 b1 : Byte} {o : OperandOp} (h : decodeFirst b0 = .opens o) (hi : o.withOperand b1 = i) : EncodedAs i [b0, b1]

theorem encodedAs_encode (i : Instr) : EncodedAs i (encode i) := by
  cases i with
  | nop => exact .whole (decodeFirst_sysShape 0b00)
  | out => exact .whole (decodeFirst_sysShape 0b01)
  | hlt => exact .whole (decodeFirst_sysShape 0b10)
  | add rs rd => exact .whole (decodeFirst_pairByte rs rd rfl)
  | sub rs rd => exact .whole (decodeFirst_pairByte rs rd rfl)
  | inc r => exact .whole (decodeFirst_regByte (decodeFirst_rtShape r 0b10) rfl)
  | dec r => exact .whole (decodeFirst_regByte (decodeFirst_rtShape r 0b11) rfl)
  | ldi r vv => exact .opens (decodeFirst_regByte (decodeFirst_rtbShape r 0b00) rfl) rfl
  | ldm r aa => exact .opens (decodeFirst_regByte (decodeFirst_rtbShape r 0b01) rfl) rfl
  | sav r aa => exact .opens (decodeFirst_regByte (decodeFirst_rtbShape r 0b10) rfl) rfl
  | jmp aa => exact .opens decodeFirst_jmpByte rfl
  | jmz aa => exact .opens (decodeFirst_jbShape 0b00 0b01) rfl
  | jnz aa => exact .opens (decodeFirst_jbShape 0b00 0b10) rfl
  | mov rs rd => exact .whole (decodeFirst_pairByte rs rd rfl)
  | and rs rd => exact .whole (decodeFirst_pairByte rs rd rfl)
  | or rs rd => exact .whole (decodeFirst_pairByte rs rd rfl)
  | xor rs rd => exact .whole (decodeFirst_pairByte rs rd rfl)
  | not r => exact .whole (decodeFirst_regByte (decodeFirst_r1Shape r 0b00) rfl)
  | cmp rs rd => exact .whole (decodeFirst_pairByte rs rd rfl)

theorem decode_of_encodedAs {i : Instr} {bs : List Byte} (h : EncodedAs i bs) (rest : List Byte) : decode (bs ++ rest) = .instr i rest := by
  cases h with
  | whole hd => exact decode_whole hd rest
  | opens hd hi => exact hi ▸ decode_opens hd _ rest

/-- Settles O1, by the two forms an encoding can have. -/
theorem decodeUndoesEncode : Obligations.DecodeUndoesEncode := fun i rest => decode_of_encodedAs (encodedAs_encode i) rest

/-! From the decoder to the encoder. -/

theorem regBits_regOfField (f : BitVec 2) : regBits (regOfField f) = f := by
  revert f
  decide

/-- A byte is its three fields. -/
theorem firstByte_fields (b : Byte) : firstByte (hiField b) (midField b) (opNibble b) = b := by
  apply BitVec.eq_of_toNat_eq
  rw [toNat_firstByte]
  simp only [hiField, midField, opNibble, BitVec.extractLsb'_toNat, Nat.shiftRight_eq_div_pow]
  have := b.isLt
  omega

/-- Where the decoder takes two registers from a byte, the encoder's byte is that byte. -/
theorem pairByte_fields {b : Byte} {n : Nat} (hn : (opNibble b).toNat = n) :
    pairByte (regOfField (hiField b)) (regOfField (midField b)) n = b := by
  rw [← hn, pairByte_eq_firstByte, regBits_regOfField, regBits_regOfField, firstByte_fields]

/-- Where it takes one register, the second field being the type. -/
theorem regByte_fields {b : Byte} {n : Nat} (hn : 16 * (midField b).toNat + (opNibble b).toNat = n) :
    regByte (regOfField (hiField b)) n = b := by
  rw [← hn, regByte_eq_firstByte, regBits_regOfField, firstByte_fields]

/-- Where it takes none, the first field being zero: NOP, OUT, HLT and the jumps. -/
theorem ofNat_fields {b : Byte} {n : Nat} (hh : hiField b = 0) (hn : 16 * (midField b).toNat + (opNibble b).toNat = n) :
    BitVec.ofNat 8 n = b := by
  rw [← regByte_fields hn, hh, regByte, show regOfField 0 = .A from rfl, regNumber, Nat.mul_zero, Nat.zero_add]

/-- Arm by arm of the decoder: two registers, one register or none taken from the byte. -/
theorem encode_of_whole {b : Byte} {i : Instr} (h : decodeFirst b = .whole i) : encode i = [b] := by
  simp only [decodeFirst] at h
  repeat' split at h
  all_goals cases h
  all_goals simp only [encode, List.cons.injEq, and_true]
  any_goals exact pairByte_fields ‹_›
  any_goals exact regByte_fields (by simp [*])
  all_goals exact ofNat_fields ‹_› (by simp [*])

/-- As for a whole instruction; no two-byte instruction takes two registers. -/
theorem encode_of_opens {b : Byte} {o : OperandOp} (h : decodeFirst b = .opens o) (b1 : Byte) : encode (o.withOperand b1) = [b, b1] := by
  simp only [decodeFirst] at h
  repeat' split at h
  all_goals cases h
  all_goals simp only [OperandOp.withOperand, encode, List.cons.injEq, and_true]
  any_goals exact regByte_fields (by simp [*])
  all_goals exact ofNat_fields ‹_› (by simp [*])

/-- Settles O2, by the two forms a decoded list of bytes can have. -/
theorem encodeUndoesDecode : Obligations.EncodeUndoesDecode := by
  intro bs rest i h
  rcases decode_eq_instr h with ⟨b0, rfl, hd⟩ | ⟨b0, o, b1, rfl, hd, rfl⟩
  · rw [encode_of_whole hd]
    rfl
  · rw [encode_of_opens hd]
    rfl

/-! The two lists of first bytes, each written out from the decoder's and the encoder's side. -/

/-- The table of R62 is, nibble by nibble, what the decoder rejects. -/
theorem reservedBytes_eq : reservedBytes = (List.range 16).flatMap fun lo =>
    ((List.range 16).map (16 * · + lo)).filter fun n => decodeFirst (BitVec.ofNat 8 n) = .illegal := by
  decide

theorem decodeFirst_illegal_iff {b : Byte} : decodeFirst b = .illegal ↔ b.toNat ∈ reservedBytes := by
  have hb := b.isLt
  simp only [reservedBytes_eq, List.mem_flatMap, List.mem_filter, List.mem_map, List.mem_range, decide_eq_true_eq, BitVec.ofNat_toNat,
    BitVec.setWidth_eq]
  constructor
  · intro h
    exact ⟨b.toNat % 16, by omega, ⟨b.toNat / 16, by omega, by omega⟩, h⟩
  · rintro ⟨_, _, _, h⟩
    exact h

theorem decode_eq_illegal_iff {b0 : Byte} {rest : List Byte} : decode (b0 :: rest) = .illegal b0 ↔ decodeFirst b0 = .illegal := by
  constructor
  · intro h
    cases hd : decodeFirst b0 with
    | illegal => rfl
    | whole i => simp [decode_whole hd] at h
    | opens o => cases rest <;> simp [decode, hd] at h
  · exact fun h => decode_illegal h rest

/-- Settles O3: the decoder rejects by the first byte alone, and the table lists those bytes. -/
theorem rejectedFirstBytesAreTheTable : Obligations.RejectedFirstBytesAreTheTable :=
  ⟨by decide, by decide, fun _ _ => decode_eq_illegal_iff.trans decodeFirst_illegal_iff⟩

/-- The list of U5 is, nibble by nibble, the encoder's bytes with one register in both fields. -/
theorem sameRegisterForms_eq : sameRegisterForms = pairNibbles.flatMap fun n => [Reg.A, .B, .C, .D].map fun r => pairByte r r n := by
  decide

theorem mem_sameRegisterForms_iff {b : Byte} : b ∈ sameRegisterForms ↔ ∃ n ∈ pairNibbles, ∃ r, pairByte r r n = b := by
  have hr (r : Reg) : r ∈ [Reg.A, .B, .C, .D] := by cases r <;> decide
  simp only [sameRegisterForms_eq, List.mem_flatMap, List.mem_map, hr, true_and]

/-- An instruction with nothing but its first byte consumed was the whole of that byte. -/
theorem decodeFirst_of_decode_rest {b0 : Byte} {rest : List Byte} {i : Instr} (h : decode (b0 :: rest) = .instr i rest) :
    decodeFirst b0 = .whole i := by
  rcases decode_eq_instr h with ⟨b, hb, hd⟩ | ⟨b, o, b1, hb, -, -⟩
  · cases hb
    exact hd
  · have := congrArg List.length hb
    simp at this

/-- Settles O7: both sides are the bytes `pairByte r r n` with a nibble of the shape RR. -/
theorem sameRegisterFormsAreTheTwentyEight : Obligations.SameRegisterFormsAreTheTwentyEight := by
  refine ⟨by decide, by decide, fun b0 rest => mem_sameRegisterForms_iff.trans ⟨?_, ?_⟩⟩
  · rintro ⟨n, hn, r, rfl⟩
    obtain ⟨mk, hmk⟩ := mem_pairNibbles_iff.1 hn
    exact ⟨mk r r, r, decode_whole (decodeFirst_pairByte r r hmk) rest, registerPair_eq_some_iff.2 ⟨n, mk, hmk, rfl⟩⟩
  · rintro ⟨i, r, hd, hpair⟩
    obtain ⟨n, mk, hmk, rfl⟩ := registerPair_eq_some_iff.1 hpair
    have hwhole := encode_of_whole (decodeFirst_of_decode_rest hd)
    have hbyte := encode_of_whole (decodeFirst_pairByte r r hmk)
    exact ⟨n, mem_pairNibbles_iff.2 ⟨mk, hmk⟩, r, List.singleton_inj.1 (hbyte.symm.trans hwhole)⟩

/-- Settles O6, from the nibbles of the shape RR and the weights of the fields. -/
theorem twoRegisterShape : Obligations.TwoRegisterShape := by
  intro rs rd rest
  have hrr {lo : BitVec 4} {mk : Reg → Reg → Instr} (h : pairInstr lo.toNat = some mk) :
      decode (firstByte (regBits rs) (regBits rd) lo :: rest) = .instr (mk rs rd) rest :=
    decode_whole (decodeFirst_rrShape rs rd h) rest
  refine ⟨hrr rfl, hrr rfl, hrr rfl, hrr rfl, hrr rfl, hrr rfl, hrr rfl, fun n hn => ?_⟩
  rw [toNat_firstByte, toNat_regBits, toNat_regBits, BitVec.toNat_ofNat, Nat.mod_eq_of_lt hn, Nat.add_assoc]

/-- Settles O8: each word is the encoding of its instruction, and decoding undoes encoding. -/
theorem sourceWordsDecode : Obligations.SourceWordsDecode :=
  ⟨decodeUndoesEncode .out [], decodeUndoesEncode (.add .A .B) [], decodeUndoesEncode (.mov .D .C) [], decodeUndoesEncode (.inc .C) [],
    decodeUndoesEncode (.sav .D 0x80) [], decodeUndoesEncode (.jmz 0x0B) [], decodeUndoesEncode (.not .C) []⟩

end Sys2Proof
end

section
/-! What one instruction of the standard machine does, component by component. Every statement about an instruction, alone or over all of
them, is read off from here. -/

namespace Sys2Proof.Machine

/-! The result of an instruction. -/

/-- The 8-bit result of an instruction that has one: what it writes to its register, or, for CMP, what it only compares with zero. -/
def resultByte (s : State) : Instr → Byte
  | .add rs rd => s.rd rs + s.rd rd
  | .sub rs rd | .cmp rs rd => s.rd rs - s.rd rd
  | .inc r => s.rd r + 1
  | .dec r => s.rd r - 1
  | .ldi _ vv => vv
  | .ldm _ aa => (s.mem.read aa).getD 0
  | .mov rs _ => s.rd rs
  | .and rs rd => s.rd rs &&& s.rd rd
  | .or rs rd => s.rd rs ||| s.rd rd
  | .xor rs rd => s.rd rs ^^^ s.rd rd
  | .not r => ~~~(s.rd r)
  | .nop | .out | .hlt | .sav _ _ | .jmp _ | .jmz _ | .jnz _ => 0

/-- The memory an instruction leaves: only SAV writes it (R37). -/
def memAfter (s : State) : Instr → Memory
  | .sav r aa => s.mem.write aa (s.rd r)
  | .nop | .out | .hlt | .add _ _ | .sub _ _ | .inc _ | .dec _ | .ldi _ _ | .ldm _ _ | .jmp _ | .jmz _ | .jnz _ => s.mem
  | .mov _ _ | .and _ _ | .or _ _ | .xor _ _ | .not _ | .cmp _ _ => s.mem

/-- The state `t` is what the instruction leaves of `s`, component by component. -/
structure Effect (i : Instr) (s t : State) : Prop where
  regs : ∀ r, t.rd r = if writtenReg i = some r then resultByte s i else s.rd r
  pc : t.pc = (takenTarget s i).getD (nextAddr s.pc i.length)
  z : t.z = if zWriter i then decide (resultByte s i = 0) else s.z
  halted : t.halted = if i = .hlt then true else s.halted
  out : t.out = if i = .out then s.rd .A else s.out
  outs : t.outs = if i = .out then s.outs ++ [s.rd .A] else s.outs
  mem : t.mem = memAfter s i

/-- An instruction that writes a register neither jumps, halts, shows nor stores. -/
theorem noOtherEffect_of_writtenReg {i : Instr} {k : Reg} (h : writtenReg i = some k) (s : State) :
    takenTarget s i = none ∧ i ≠ .hlt ∧ i ≠ .out ∧ memAfter s i = s.mem := by
  cases i <;> simp_all [writtenReg, takenTarget, memAfter]

/-- The end of an instruction that writes its result to a register has that instruction's effect. -/
theorem effect_of_writtenReg {i : Instr} {op : ResultOp} {k : Reg} (s : State) (hk : writtenReg i = some k)
    (hz : writesZ params op = zWriter i) :
    Effect i s (jumpTo (setZ params op (resultByte s i) (s.wr k (resultByte s i))) (nextAddr s.pc i.length)) := by
  obtain ⟨hjump, hhlt, hout, hmem⟩ := noOtherEffect_of_writtenReg hk s
  constructor
  case regs => simp [hk, State.rd_wr, eq_comm]
  case z => simp [setZ_z, hz, zeroFlag]
  all_goals simp [hjump, hhlt, hout, hmem]

/-- LDM goes on exactly when the byte at its address has been written. -/
theorem exec_ldm_of_read {r : Reg} {aa v : Byte} {s : State} (h : s.mem.read aa = some v) :
    exec (.ldm r aa) s = .next (jumpTo (s.wr r v) (nextAddr s.pc 2)) := by
  rw [exec, execLdm_eq, readByte_some h, andThen_next]

theorem exec_ldm_of_unwritten {r : Reg} {aa : Byte} {s : State} (h : s.mem.read aa = none) :
    exec (.ldm r aa) s = .fault (.unspecifiedRead aa) := by
  rw [exec, execLdm_eq, readByte_none h, andThen_fault]

theorem effect_ldm {r : Reg} {aa v : Byte} {s : State} (h : s.mem.read aa = some v) :
    Effect (.ldm r aa) s (jumpTo (s.wr r v) (nextAddr s.pc 2)) := by
  have hv : resultByte s (.ldm r aa) = v := by rw [resultByte, h, Option.getD_some]
  have he := effect_of_writtenReg (i := .ldm r aa) (op := .ldm) s rfl rfl
  rwa [hv] at he

/-- An instruction that goes on has its effect. -/
theorem exec_effect {i : Instr} {s t : State} (h : exec i s = .next t) : Effect i s t := by
  cases i with
  | add rs rd => cases (execAdd_eq rs rd s).symm.trans h; exact effect_of_writtenReg s rfl rfl
  | sub rs rd => cases (execSub_eq rs rd s).symm.trans h; exact effect_of_writtenReg s rfl rfl
  | inc r => cases (execInc_eq r s).symm.trans h; exact effect_of_writtenReg s rfl rfl
  | dec r => cases (execDec_eq r s).symm.trans h; exact effect_of_writtenReg s rfl rfl
  | and rs rd => cases (execAnd_eq rs rd s).symm.trans h; exact effect_of_writtenReg s rfl rfl
  | or rs rd => cases (execOr_eq rs rd s).symm.trans h; exact effect_of_writtenReg s rfl rfl
  | xor rs rd => cases (execXor_eq rs rd s).symm.trans h; exact effect_of_writtenReg s rfl rfl
  | not r => cases (execNot_eq r s).symm.trans h; exact effect_of_writtenReg s rfl rfl
  | mov rs rd => cases (execMov_eq rs rd s).symm.trans h; exact effect_of_writtenReg (op := .mov) s rfl rfl
  | ldi r vv => cases (execLdi_eq r vv s).symm.trans h; exact effect_of_writtenReg (op := .ldi) s rfl rfl
  | ldm r aa =>
    cases hv : s.mem.read aa with
    | none => cases (exec_ldm_of_unwritten hv).symm.trans h
    | some v => cases (exec_ldm_of_read hv).symm.trans h; exact effect_ldm hv
  | nop => cases (execNop_eq s).symm.trans h; exact ⟨jumpTo_rd s _, rfl, rfl, rfl, rfl, rfl, rfl⟩
  | out => cases (execOut_eq s).symm.trans h; exact ⟨State.display_rd s (s.rd .A), rfl, rfl, rfl, rfl, rfl, rfl⟩
  | hlt => cases (execHlt_eq s).symm.trans h; exact ⟨State.halt_rd s, rfl, rfl, rfl, rfl, rfl, rfl⟩
  | sav r aa => cases (execSav_eq r aa s).symm.trans h; exact ⟨State.storeByte_rd s (s.rd r) aa params, rfl, rfl, rfl, rfl, rfl, rfl⟩
  | jmp aa => cases (execJmp_eq aa s).symm.trans h; exact ⟨jumpTo_rd s _, rfl, rfl, rfl, rfl, rfl, rfl⟩
  | jmz aa =>
    cases (execJmz_eq aa s).symm.trans h
    exact ⟨jumpTo_rd s _, by cases hz : s.z <;> simp [takenTarget, hz, Instr.length], rfl, rfl, rfl, rfl, rfl⟩
  | jnz aa =>
    cases (execJnz_eq aa s).symm.trans h
    exact ⟨jumpTo_rd s _, by cases hz : s.z <;> simp [takenTarget, hz, Instr.length], rfl, rfl, rfl, rfl, rfl⟩
  | cmp rs rd => cases (execCmp_eq rs rd s).symm.trans h; exact ⟨setZ_rd _ _ _ _, rfl, rfl, rfl, rfl, rfl, rfl⟩

/-! Whether an instruction goes on. -/

theorem exec_next_or_unwritten (i : Instr) (s : State) :
    (∃ t, exec i s = .next t) ∨ ∃ r aa, i = .ldm r aa ∧ s.mem.read aa = none := by
  by_cases hldm : ∃ r aa, i = .ldm r aa
  · obtain ⟨r, aa, rfl⟩ := hldm
    cases hv : s.mem.read aa with
    | none => exact .inr ⟨r, aa, rfl, hv⟩
    | some v => exact .inl ⟨_, exec_ldm_of_read hv⟩
  · exact .inl (exec_total s i fun r aa e => hldm ⟨r, aa, e⟩)

/-- The only fault of an instruction is LDM's, of a byte nothing has written (R142). -/
theorem exec_eq_fault {i : Instr} {s : State} {f : Fault} :
    exec i s = .fault f ↔ ∃ r aa, i = .ldm r aa ∧ s.mem.read aa = none ∧ f = .unspecifiedRead aa := by
  constructor
  · intro h
    rcases exec_next_or_unwritten i s with ⟨t, ht⟩ | ⟨r, aa, rfl, hread⟩
    · cases ht.symm.trans h
    · cases (exec_ldm_of_unwritten hread).symm.trans h
      exact ⟨r, aa, rfl, hread, rfl⟩
  · rintro ⟨r, aa, rfl, hread, rfl⟩
    exact exec_ldm_of_unwritten hread

/-- Settles O29: the instruction goes on or is LDM of an unwritten byte, and not both. -/
theorem onlyLdmOfUnwrittenByteStops : Obligations.OnlyLdmOfUnwrittenByteStops := by
  intro i s
  constructor
  · intro hstop
    obtain ⟨r, aa, rfl, hread⟩ := (exec_next_or_unwritten i s).resolve_left hstop
    exact ⟨r, aa, rfl, hread, exec_ldm_of_unwritten hread⟩
  · rintro ⟨r, aa, -, -, hfault⟩ ⟨t, hnext⟩
    cases hnext.symm.trans hfault

/-- An instruction that cannot be LDM goes on, with its effect. -/
theorem exec_has_effect (i : Instr) (s : State) (h : ∀ r aa, i ≠ .ldm r aa) : ∃ t, exec i s = .next t ∧ Effect i s t := by
  obtain ⟨t, ht⟩ := exec_total s i h
  exact ⟨t, ht, exec_effect ht⟩

/-! What the effect reads of the state before: the registers, the Zero flag and the byte at the data address. -/

theorem resultByte_congr {i : Instr} {s d : State} (hregs : SameRegs s d)
    (hdata : ∀ a, dataAddress i = some a → d.mem.read a = s.mem.read a) : resultByte d i = resultByte s i := by
  cases i <;> simp_all [resultByte, dataAddress, SameRegs]

theorem takenTarget_congr {s d : State} (hz : d.z = s.z) (i : Instr) : takenTarget d i = takenTarget s i := by
  cases i <;> simp [takenTarget, hz]

/-- Memory after an instruction that does not store at the address. -/
theorem read_memAfter_of_not_sav {i : Instr} {a : Byte} (s : State) (h : ∀ r, i ≠ .sav r a) :
    (memAfter s i).read a = s.mem.read a := by
  cases i with
  | sav r aa => exact Memory.read_write_ne _ _ fun e => h r (e ▸ rfl)
  | _ => rfl

theorem read_memAfter_congr {i : Instr} {a : Byte} {s d : State} (hregs : SameRegs s d) (h : d.mem.read a = s.mem.read a) :
    (memAfter d i).read a = (memAfter s i).read a := by
  cases i with
  | sav r aa => simp only [memAfter, Memory.read_write, hregs r, h]
  | _ => exact h

theorem wf_memAfter {s : State} (h : s.mem.wf = true) (i : Instr) : (memAfter s i).wf = true := by
  cases i with
  | sav r aa => exact Memory.wf_write h aa (s.rd r)
  | _ => exact h

end Sys2Proof.Machine
end

section
/-! The fetch and the step: what the bytes at the program counter decide, and every way a step can stop. -/

open Sys2Proof.Claims

namespace Sys2Proof

/-- A byte opens a two-byte instruction when it is not reserved and its nibble is 0100 or 0101 (R64). -/
theorem twoByte_iff_opens {b : Byte} : twoByte b ↔ ∃ o, decodeFirst b = .opens o := by
  unfold twoByte
  rw [← decodeFirst_illegal_iff]
  cases hd : decodeFirst b with
  | illegal => simp
  | whole i => simpa using (decodeFirst_whole_length hd).2
  | opens o => simpa using decodeFirst_opens_nibble hd

theorem length_encode (i : Instr) : (encode i).length = i.length := by cases i <;> rfl

namespace Machine

/-- The fetch reads the byte at the program counter and, if that opens a two-byte instruction, the next one; nothing else of the state. -/
theorem fetch_congr {s t : State} (hpc : t.pc = s.pc) (h0 : t.mem.read s.pc = s.mem.read s.pc)
    (h1 : ∀ b0, s.mem.read s.pc = some b0 → twoByte b0 → t.mem.read (nextAddr s.pc 1) = s.mem.read (nextAddr s.pc 1)) :
    fetch params t = fetch params s := by
  rw [fetch_params, fetch_params, hpc]
  cases hb : s.mem.read s.pc with
  | none => rw [readByte_none hb, readByte_none (h0.trans hb), andThen_fault, andThen_fault]
  | some b0 =>
    rw [readByte_some hb, readByte_some (h0.trans hb), andThen_next, andThen_next]
    cases hd : decodeFirst b0 with
    | illegal => rfl
    | whole i => rfl
    | opens o => simp only [readByte, h1 b0 hb (twoByte_iff_opens.2 ⟨o, hd⟩)]

/-- Settles O10: both bytes are the same. -/
theorem fetchReadsOnlyItsBytes : Obligations.FetchReadsOnlyItsBytes :=
  fun _ _ hpc h0 h1 => fetch_congr hpc h0 fun _ _ _ => h1

/-! A fetch that goes on. -/

/-- The bytes `bs`, one or two, stand at the program counter. -/
inductive BytesAtPc (s : State) : List Byte → Prop
  | one {b0 : Byte} (h0 : s.mem.read s.pc = some b0) : BytesAtPc s [b0]
  | two {b0 b1 : Byte} (h0 : s.mem.read s.pc = some b0) (h1 : s.mem.read (nextAddr s.pc 1) = some b1) : BytesAtPc s [b0, b1]

theorem BytesAtPc.one_or_two {s : State} {bs : List Byte} (h : BytesAtPc s bs) :
    (∃ b0, bs = [b0] ∧ s.mem.read s.pc = some b0) ∨
    ∃ b0 b1, bs = [b0, b1] ∧ s.mem.read s.pc = some b0 ∧ s.mem.read (nextAddr s.pc 1) = some b1 := by
  cases h with
  | one h0 => exact .inl ⟨_, rfl, h0⟩
  | two h0 h1 => exact .inr ⟨_, _, rfl, h0, h1⟩

/-- A fetch goes on with an instruction whose encoding stands at the program counter (R51, R70). -/
theorem fetch_of_bytes {s : State} {i : Instr} {bs : List Byte} (hi : EncodedAs i bs) (hbs : BytesAtPc s bs) :
    fetch params s = .next i := by
  cases hi with
  | whole hd =>
    cases hbs with
    | one h0 => exact fetch_eq_next.2 ⟨_, h0, .inl hd⟩
  | opens hd hi =>
    cases hbs with
    | two h0 h1 => exact fetch_eq_next.2 ⟨_, h0, .inr ⟨_, _, hd, h1, hi⟩⟩

/-- It goes on with no other. -/
theorem bytes_of_fetch {s : State} {i : Instr} (h : fetch params s = .next i) : BytesAtPc s (encode i) := by
  obtain ⟨b0, h0, hd | ⟨o, b1, hd, h1, rfl⟩⟩ := fetch_eq_next.1 h
  · rw [encode_of_whole hd]
    exact .one h0
  · rw [encode_of_opens hd]
    exact .two h0 h1

/-- A running machine's step is `exec` of the instruction it fetches (R166). -/
theorem step_of_fetch {s : State} {i : Instr} (hrun : s.halted = false) (h : fetch params s = .next i) : step s = exec i s := by
  rw [step_of_running hrun, h, andThen_next]

theorem step_of_bytes {s : State} {i : Instr} {bs : List Byte} (hrun : s.halted = false) (hi : EncodedAs i bs) (hbs : BytesAtPc s bs) :
    step s = exec i s :=
  step_of_fetch hrun (fetch_of_bytes hi hbs)

/-- Bytes that decode to an instruction, none left over, are its encoding. -/
theorem encodedAs_of_decode {bs : List Byte} {i : Instr} (h : decode bs = .instr i []) : EncodedAs i bs := by
  have he : encode i ++ [] = bs := encodeUndoesDecode bs [] i h
  rw [← he, List.append_nil]
  exact encodedAs_encode i

/-- Settles O11: the bytes are the instruction's encoding, and they stand at the program counter. -/
theorem stepRunsDecodedInstruction : Obligations.StepRunsDecodedInstruction :=
  fun _ hrun => ⟨fun _ _ h0 hd => step_of_bytes hrun (encodedAs_of_decode hd) (.one h0),
    fun _ _ _ h0 h1 hd => step_of_bytes hrun (encodedAs_of_decode hd) (.two h0 h1)⟩

/-- Settles O12: a fetch goes on only with what stands at the program counter. -/
theorem stepOnlyRunsWhatIsThere : Obligations.StepOnlyRunsWhatIsThere := by
  intro s t h
  obtain ⟨hrun, i, hfetch, hexec⟩ := step_eq_next.1 h
  exact ⟨hrun, i, hexec, (bytes_of_fetch hfetch).one_or_two⟩

/-- Settles O13: the operand byte is at `next(1)` of 0xFF, which is 0x00, and an instruction that does not jump moves on by its length. -/
theorem operandFetchWrapsAtTop : Obligations.OperandFetchWrapsAtTop := by
  intro s b0 b1 i hrun hpc he h0 h1
  have hbytes : BytesAtPc s (encode i) := by
    rw [he]
    exact .two (hpc ▸ h0) (hpc ▸ h1)
  refine ⟨step_of_bytes hrun (encodedAs_encode i) hbytes, fun t ht hjump => ?_⟩
  have hlen : i.length = 2 := by rw [← length_encode, he]; rfl
  rw [(exec_effect ht).pc, hjump, hlen, hpc]
  rfl

/-! A fetch that stops. -/

/-- The ways a fetch stops, in their order (R147): the first byte unwritten, reserved, or wanting an operand byte that is unwritten. -/
inductive FetchStop (s : State) : Fault → Prop
  | unwritten (h : s.mem.read s.pc = none) : FetchStop s (.unspecifiedRead s.pc)
  | reserved {b0 : Byte} (h0 : s.mem.read s.pc = some b0) (h : b0.toNat ∈ reservedBytes) : FetchStop s (.illegalInstruction s.pc b0)
  | noOperand {b0 : Byte} (h0 : s.mem.read s.pc = some b0) (h : twoByte b0) (h1 : s.mem.read (nextAddr s.pc 1) = none) :
      FetchStop s (.unspecifiedRead (nextAddr s.pc 1))

theorem fetch_of_stop {s : State} {f : Fault} (h : FetchStop s f) : fetch params s = .fault f := by
  rw [fetch_params]
  cases h with
  | unwritten h => rw [readByte_none h, andThen_fault]
  | reserved h0 h => simp only [readByte_some h0, andThen_next, decodeFirst_illegal_iff.2 h]
  | noOperand h0 h h1 =>
    obtain ⟨o, ho⟩ := twoByte_iff_opens.1 h
    simp only [readByte_some h0, andThen_next, ho, readByte_none h1, andThen_fault]

theorem stop_of_fetch {s : State} {f : Fault} (h : fetch params s = .fault f) : FetchStop s f := by
  rw [fetch_params] at h
  cases h0 : s.mem.read s.pc with
  | none =>
    rw [readByte_none h0, andThen_fault] at h
    cases h
    exact .unwritten h0
  | some b0 =>
    rw [readByte_some h0, andThen_next] at h
    cases hd : decodeFirst b0 with
    | illegal =>
      simp only [hd] at h
      cases h
      exact .reserved h0 (decodeFirst_illegal_iff.1 hd)
    | whole i =>
      simp only [hd] at h
      cases h
    | opens o =>
      simp only [hd, andThen_eq_fault, readByte_eq_fault] at h
      rcases h with ⟨h1, rfl⟩ | ⟨_, _, hnext⟩
      · exact .noOperand h0 (twoByte_iff_opens.2 ⟨o, hd⟩) h1
      · cases hnext

theorem step_of_stop {s : State} {f : Fault} (hrun : s.halted = false) (h : FetchStop s f) : step s = .fault f := by
  rw [step_of_running hrun, fetch_of_stop h, andThen_fault]

/-- A step that faults did so in its fetch, or in the LDM it fetched. -/
theorem step_eq_fault {s : State} {f : Fault} : step s = .fault f ↔ s.halted = false ∧
    (FetchStop s f ∨ ∃ r aa, fetch params s = .next (.ldm r aa) ∧ s.mem.read aa = none ∧ f = .unspecifiedRead aa) := by
  constructor
  · intro h
    have hrun : s.halted = false := by
      refine Bool.eq_false_iff.2 fun hh => ?_
      rw [step_of_halted hh] at h
      cases h
    rw [step_of_running hrun, andThen_eq_fault] at h
    rcases h with hf | ⟨i, hfetch, hexec⟩
    · exact ⟨hrun, .inl (stop_of_fetch hf)⟩
    · obtain ⟨r, aa, rfl, hread, rfl⟩ := exec_eq_fault.1 hexec
      exact ⟨hrun, .inr ⟨r, aa, hfetch, hread, rfl⟩⟩
  · rintro ⟨hrun, hstop | ⟨r, aa, hfetch, hread, rfl⟩⟩
    · exact step_of_stop hrun hstop
    · rw [step_of_fetch hrun hfetch, exec_ldm_of_unwritten hread]

/-- Settles O14, from the stops of a fetch. -/
theorem fetchChecksInOrder : Obligations.FetchChecksInOrder :=
  fun _ => ⟨step_of_halted, fun hrun h => step_of_stop hrun (.unwritten h), fun _ hrun h0 h => step_of_stop hrun (.reserved h0 h),
    fun _ hrun h0 h h1 => step_of_stop hrun (.noOperand h0 h h1)⟩

/-- Settles O15, from the stops of a step; each clause is one kind of stop. -/
theorem onlyTheseEventsStop : Obligations.OnlyTheseEventsStop := by
  intro s
  refine ⟨fun q => step_eq_refused, fun a b => ⟨fun h => ?_, ?_⟩, fun a h => ?_, fun a h => ?_⟩
  · obtain ⟨hrun, hstop | ⟨_, _, -, -, hf⟩⟩ := step_eq_fault.1 h
    · cases hstop with
      | reserved h0 h => exact ⟨hrun, rfl, h0, h⟩
    · cases hf
  · rintro ⟨hrun, rfl, h0, h⟩
    exact step_of_stop hrun (.reserved h0 h)
  · obtain ⟨hrun, hstop | ⟨r, aa, hfetch, hread, hf⟩⟩ := step_eq_fault.1 h
    · cases hstop with
      | unwritten h0 => exact ⟨hrun, h0, .inl rfl⟩
      | noOperand _ _ h1 => exact ⟨hrun, h1, .inr (.inl rfl)⟩
    · cases hf
      exact ⟨hrun, hread, .inr (.inr ⟨r, hfetch⟩)⟩
  · obtain ⟨-, hstop | ⟨_, _, -, -, hf⟩⟩ := step_eq_fault.1 h
    · cases hstop
    · cases hf

end Machine
end Sys2Proof
end

section
/-! Two states side by side: what an outcome of one says about the outcome of the other (R32, R18, R21). -/

open Sys2Proof.Claims

namespace Sys2Proof.Machine

/-- Where the first outcome goes on, so does the second, to a state related to it by `R`; where the first stops, the second stops for the
same reason. -/
structure Matches (R : State → State → Prop) (o o' : Host.Outcome State Fault Refusal) : Prop where
  next : ∀ t, o = .next t → ∃ u, o' = .next u ∧ R t u
  fault : ∀ f, o = .fault f → o' = .fault f
  refused : ∀ q, o = .refused q → o' = .refused q

variable {R R' : State → State → Prop}

theorem matches_next {t u : State} (h : R t u) : Matches R (.next t) (.next u) where
  next _ e := by
    cases e
    exact ⟨u, rfl, h⟩
  fault := nofun
  refused := nofun

theorem matches_fault (f : Fault) : Matches R (.fault f) (.fault f) := ⟨nofun, fun _ e => e, nofun⟩

theorem matches_refused (q : Refusal) : Matches R (.refused q) (.refused q) := ⟨nofun, nofun, fun _ e => e⟩

/-- Sequences match when their first parts do and their second parts do from related states. -/
theorem matches_andThen {o o' : Host.Outcome State Fault Refusal} {k k' : State → Host.Outcome State Fault Refusal}
    (ho : Matches R o o') (hk : ∀ t u, o = .next t → R t u → Matches R' (k t) (k' u)) : Matches R' (andThen o k) (andThen o' k') := by
  obtain ⟨hnext, hfault, hrefused⟩ := ho
  cases o with
  | next t =>
    obtain ⟨u, rfl, hR⟩ := hnext t rfl
    exact hk t u rfl hR
  | fault f =>
    rw [hfault f rfl]
    exact matches_fault f
  | refused q =>
    rw [hrefused q rfl]
    exact matches_refused q

/-- One instruction from two states that read alike at its data address: the outcomes match in whatever its effects imply. -/
theorem exec_matches {i : Instr} {s d : State} (hdata : ∀ a, dataAddress i = some a → d.mem.read a = s.mem.read a)
    (hR : ∀ t u, Effect i s t → Effect i d u → R t u) : Matches R (exec i s) (exec i d) := by
  refine ⟨fun t ht => ?_, fun f hf => ?_, fun q hq => absurd hq (exec_ne_refused s i q)⟩
  · rcases exec_next_or_unwritten i d with ⟨u, hu⟩ | ⟨r, aa, rfl, hread⟩
    · exact ⟨u, hu, hR t u (exec_effect ht) (exec_effect hu)⟩
    · rw [hdata aa rfl] at hread
      cases (exec_ldm_of_unwritten hread).symm.trans ht
  · obtain ⟨r, aa, rfl, hread, rfl⟩ := exec_eq_fault.1 hf
    exact exec_ldm_of_unwritten ((hdata aa rfl).trans hread)

/-- A step from two states that are both running or both halted and fetch alike, the second under any configuration. -/
theorem step_matches {c : Config} {s d : State} (hhalted : d.halted = s.halted) (hfetch : fetch c d = fetch params s)
    (hexec : ∀ i, fetch params s = .next i → Matches R (exec i s) (execIn c i d)) : Matches R (step s) (stepIn c d) := by
  cases hh : s.halted with
  | true =>
    rw [step_of_halted hh, stepIn, hhalted.trans hh, if_pos rfl]
    exact matches_refused .halted
  | false =>
    rw [step_of_running hh, stepIn, hhalted.trans hh, if_neg Bool.false_ne_true, hfetch]
    cases hf : fetch params s with
    | next i => exact hexec i hf
    | fault f => exact matches_fault f
    | refused q => exact matches_refused q

/-! One memory or two (R32). -/

/-- Only the fetch looks at `MEM_ORG`. -/
theorem execIn_splitMemory (P : Memory) (i : Instr) (s : State) : execIn (splitMemory P) i s = exec i s := by cases i <;> rfl

/-- The split machine fetches as the standard one whose whole memory is the program store. -/
theorem fetch_splitMemory (P : Memory) (d : State) : fetch (splitMemory P) d = fetch params { d with mem := P } := rfl

variable {F : Byte → Prop} {P : Memory} {s d : State}

theorem fetch_codeApart (h : CodeApart F P s d) (hF : FetchesWithin F s) : fetch (splitMemory P) d = fetch params s := by
  rw [fetch_splitMemory]
  exact fetch_congr h.pc (h.code _ hF.first).symm fun b0 h0 htwo => (h.code _ (hF.second b0 h0 htwo)).symm

/-- An instruction with its data access outside `F` keeps two states apart in memory alone. -/
theorem effect_codeApart {i : Instr} {t u : State} (h : CodeApart F P s d) (hF : ∀ a, dataAddress i = some a → ¬ F a)
    (ht : Effect i s t) (hu : Effect i d u) : CodeApart F P t u := by
  have hresult : resultByte d i = resultByte s i := resultByte_congr h.regs fun a ha => h.data a (hF a ha)
  have hsav : ∀ a, F a → ∀ r, i ≠ .sav r a := by
    rintro a ha r rfl
    exact hF a rfl ha
  obtain ⟨hout, houts⟩ := h.display
  exact {
    regs := fun r => by rw [hu.regs, ht.regs, hresult, h.regs r]
    pc := by rw [hu.pc, ht.pc, takenTarget_congr h.z, h.pc]
    z := by rw [hu.z, ht.z, hresult, h.z]
    halted := by rw [hu.halted, ht.halted, h.halted]
    display := ⟨by rw [hu.out, ht.out, h.regs, hout], by rw [hu.outs, ht.outs, h.regs, houts]⟩
    code := fun a ha => by rw [ht.mem, read_memAfter_of_not_sav s (hsav a ha), h.code a ha]
    data := fun a ha => by rw [hu.mem, ht.mem, read_memAfter_congr h.regs (h.data a ha)] }

theorem step_codeApart (h : CodeApart F P s d) (hF : FetchesWithin F s) :
    Matches (CodeApart F P) (step s) (stepIn (splitMemory P) d) := by
  refine step_matches h.halted (fetch_codeApart h hF) fun i hi => ?_
  have hdata : ∀ a, dataAddress i = some a → ¬ F a := fun a => hF.apart i a hi
  rw [execIn_splitMemory]
  exact exec_matches (fun a ha => h.data a (hdata a ha)) fun t u => effect_codeApart h hdata

/-- A step keeps the two states apart in memory alone, so any number of steps does. -/
theorem run_codeApart {k : Nat} (h : CodeApart F P s d) (hF : ∀ j u, j < k → runSteps j s = .next u → FetchesWithin F u) :
    Matches (CodeApart F P) (runSteps k s) (runIn (splitMemory P) k d) := by
  induction k generalizing s d with
  | zero => exact matches_next h
  | succ k ih =>
    have hstep := step_codeApart h (hF 0 s k.succ_pos rfl)
    refine matches_andThen hstep fun t u ht htu => ih htu fun j v hj hv => hF (j + 1) v (Nat.succ_lt_succ hj) ?_
    rw [runSteps_succ, ht, andThen_next, hv]

/-- Settles O52, with the two runs matched step by step. -/
theorem splitMemoryIndistinguishable : Obligations.SplitMemoryIndistinguishable := by
  intro F P s d k h hF
  obtain ⟨hnext, hfault, hrefused⟩ := run_codeApart h hF
  exact ⟨hnext, hfault, hrefused⟩

/-! The display (R21). -/

/-- The states differ in the display and its trace at most. -/
structure ButDisplay (s d : State) : Prop where
  regs : SameRegs s d
  pc : d.pc = s.pc
  z : d.z = s.z
  halted : d.halted = s.halted
  memory : SameMemory s d

theorem effect_butDisplay {i : Instr} {t u : State} (h : ButDisplay s d) (ht : Effect i s t) (hu : Effect i d u) : ButDisplay t u := by
  have hresult : resultByte d i = resultByte s i := resultByte_congr h.regs fun a _ => h.memory a
  exact {
    regs := fun r => by rw [hu.regs, ht.regs, hresult, h.regs r]
    pc := by rw [hu.pc, ht.pc, takenTarget_congr h.z, h.pc]
    z := by rw [hu.z, ht.z, hresult, h.z]
    halted := by rw [hu.halted, ht.halted, h.halted]
    memory := fun a => by rw [hu.mem, ht.mem, read_memAfter_congr h.regs (h.memory a)] }

theorem step_butDisplay (h : ButDisplay s d) : Matches ButDisplay (step s) (step d) := by
  rw [← stepIn_params d]
  refine step_matches h.halted (fetch_congr h.pc (h.memory _) fun _ _ _ => h.memory _) fun i _ => ?_
  rw [execIn_params]
  exact exec_matches (fun a _ => h.memory a) fun t u => effect_butDisplay h

/-- Settles O45: a step keeps two states apart in the display alone. -/
theorem displayIsNeverRead : Obligations.DisplayIsNeverRead := by
  intro s o l
  have hother : ButDisplay s { s with out := o, outs := l } := ⟨fun r => by cases r <;> rfl, rfl, rfl, rfl, fun _ => rfl⟩
  obtain ⟨hnext, hfault, hrefused⟩ := step_butDisplay hother
  refine ⟨fun t ht => ?_, hfault, hrefused⟩
  obtain ⟨u, hu, h⟩ := hnext t ht
  exact ⟨u, hu, h.regs, h.pc, h.z, h.halted, h.memory⟩

/-! The Zero flag (R18). -/

/-- Settles O42: but for the two conditional jumps, the effect reads everything else of the state before. -/
theorem onlyConditionalJumpsReadFlag : Obligations.OnlyConditionalJumpsReadFlag := by
  intro i s t b hi ht
  have hregs : SameRegs s { s with z := b } := fun r => by cases r <;> rfl
  have hjump : takenTarget { s with z := b } i = takenTarget s i := by
    cases i with
    | jmz aa => exact absurd rfl (hi aa).1
    | jnz aa => exact absurd rfl (hi aa).2
    | _ => rfl
  have hmatch := exec_matches (i := i) (s := s) (d := { s with z := b }) (R := fun t u => Effect i s t ∧ Effect i { s with z := b } u)
    (fun _ _ => rfl) fun _ _ => And.intro
  obtain ⟨u, hexec, ht, hu⟩ := hmatch.next t ht
  have hresult : resultByte { s with z := b } i = resultByte s i := resultByte_congr hregs fun _ _ => rfl
  refine ⟨u, hexec, fun r => ?_, ?_, ?_, ⟨?_, ?_⟩, fun a => ?_, ?_⟩
  · rw [hu.regs, ht.regs, hresult, hregs r]
  · rw [hu.pc, ht.pc, hjump]
  · rw [hu.halted, ht.halted]
  · rw [hu.out, ht.out, hregs .A]
  · rw [hu.outs, ht.outs, hregs .A]
  · rw [hu.mem, ht.mem, read_memAfter_congr hregs rfl]
  · rw [hu.z, ht.z, hresult]
    cases zWriter i <;> rfl

end Sys2Proof.Machine
end

section
/-! Runs from reset: the reset state, the invariant every step keeps, and the three ways a run can end. -/

namespace Sys2Proof.Machine

/-! Reset (R25, R160). -/

theorem read_ofImage (image : List (Byte × Byte)) (a : Byte) : (Memory.ofImage image).read a = image.lookup a := by
  induction image with
  | nil => rfl
  | cons p rest ih =>
    obtain ⟨k, v⟩ := p
    rw [Memory.ofImage, Memory.read_write, List.lookup_cons, ih]
    by_cases h : a = k
    · rw [if_pos h, beq_iff_eq.2 h]
    · rw [if_neg h, beq_false_of_ne h]

/-- Settles O16: all but memory is as written, and memory reads as the image by `read_ofImage`. -/
theorem resetStateForEveryImage : Obligations.ResetStateForEveryImage :=
  fun _ _ _ image => ⟨rfl, rfl, rfl, rfl, rfl, rfl, read_ofImage image, fun _ => rfl⟩

/-! The invariant (R21, log 14). -/

theorem inv_resetOf (regs : Regs) (z : Bool) (out : Byte) (image : List (Byte × Byte)) : (State.resetOf regs z out image).Inv :=
  ⟨Memory.wf_ofImage image, nofun⟩

/-- Settles O17: `State.reset` is one of the reset states. -/
theorem resetMeetsInvariant : Obligations.ResetMeetsInvariant := ⟨inv_resetOf _ _ _ _, inv_resetOf⟩

theorem effect_displayOk {i : Instr} {s t : State} (h : s.displayOk) (ht : Effect i s t) : t.displayOk := by
  intro v hv
  rw [ht.outs] at hv
  rw [ht.out]
  by_cases hi : i = .out
  · rw [if_pos hi, List.getLast?_concat] at hv
    rw [if_pos hi]
    exact Option.some.inj hv
  · rw [if_neg hi] at hv ⊢
    exact h v hv

/-- Settles O18: the instruction executed writes memory by `Memory.write` only, and a new last value of the trace is the one shown. -/
theorem stepKeepsInvariant : Obligations.StepKeepsInvariant := by
  intro s t hs hstep
  obtain ⟨-, i, -, hexec⟩ := step_eq_next.1 hstep
  have ht := exec_effect hexec
  exact ⟨ht.mem ▸ wf_memAfter hs.mem i, effect_displayOk hs.display ht⟩

/-! The end of a run (R167). -/

/-- After the halt every further step is refused. -/
theorem runSteps_of_haltsAfter {k j : Nat} {s t : State} (h : HaltsAfter k s t) (hj : k < j) : runSteps j s = .refused .halted := by
  obtain ⟨hrun, hfinal⟩ := h
  obtain ⟨m, rfl⟩ := Nat.exists_eq_add_of_lt hj
  rw [Nat.add_assoc, runSteps_add, hrun, andThen_next, runSteps_succ, step_of_halted hfinal, andThen_refused]

/-- A fault is final. -/
theorem runSteps_of_fault {k j : Nat} {s : State} {f : Fault} (h : runSteps k s = .fault f) (hj : k ≤ j) : runSteps j s = .fault f := by
  obtain ⟨m, rfl⟩ := Nat.exists_eq_add_of_le hj
  rw [runSteps_add, h, andThen_fault]

/-- A run that neither halts nor faults is still running after every number of steps. -/
theorem endless_of_no_end {s : State} (hrun : s.halted = false) (hhalt : ¬ ∃ k t, HaltsAfter k s t) (hfault : ¬ Faulted s) :
    Endless s := by
  intro k
  induction k with
  | zero => exact ⟨s, rfl, hrun⟩
  | succ k ih =>
    obtain ⟨t, ht, hth⟩ := ih
    have hstep : runSteps (k + 1) s = step t := by
      rw [runSteps_add, ht, andThen_next, runSteps_succ]
      cases step t <;> rfl
    cases hs : step t with
    | next u =>
      exact ⟨u, hstep.trans hs, Bool.eq_false_iff.2 fun hu => hhalt ⟨k + 1, u, hstep.trans hs, hu⟩⟩
    | fault f => exact absurd ⟨k + 1, f, hstep.trans hs⟩ hfault
    | refused q =>
      rw [(step_eq_refused.1 hs).1] at hth
      cases hth

theorem not_halts_and_faulted {s : State} : ¬ ((∃ k t, HaltsAfter k s t) ∧ Faulted s) := by
  rintro ⟨⟨k, t, hhalt⟩, j, f, hfault⟩
  rcases Nat.lt_or_ge k j with hlt | hle
  · cases (runSteps_of_haltsAfter hhalt hlt).symm.trans hfault
  · cases (runSteps_of_fault hfault hle).symm.trans hhalt.1

theorem not_halts_and_endless {s : State} : ¬ ((∃ k t, HaltsAfter k s t) ∧ Endless s) := by
  rintro ⟨⟨k, t, hhalt⟩, hendless⟩
  obtain ⟨u, hu, -⟩ := hendless (k + 1)
  cases (runSteps_of_haltsAfter hhalt k.lt_succ_self).symm.trans hu

theorem not_faulted_and_endless {s : State} : ¬ (Faulted s ∧ Endless s) := by
  rintro ⟨⟨k, f, hfault⟩, hendless⟩
  obtain ⟨u, hu, -⟩ := hendless k
  cases hfault.symm.trans hu

/-- A run halts after one number of steps only. -/
theorem haltsAfter_le {k k' : Nat} {s t t' : State} (h : HaltsAfter k s t) (h' : HaltsAfter k' s t') : k' ≤ k := by
  refine Nat.not_lt.1 fun hlt => ?_
  cases (runSteps_of_haltsAfter h hlt).symm.trans h'.1

/-- Settles O19, from the three exclusions and the dichotomy of `endless_of_no_end`. -/
theorem exactlyOneEnding : Obligations.ExactlyOneEnding := by
  intro s hrun
  refine ⟨?_, not_halts_and_faulted, not_halts_and_endless, not_faulted_and_endless, fun k k' t t' h h' => ?_⟩
  · by_cases hhalt : ∃ k t, HaltsAfter k s t
    · exact .inl hhalt
    · by_cases hfault : Faulted s
      · exact .inr (.inl hfault)
      · exact .inr (.inr (endless_of_no_end hrun hhalt hfault))
  · obtain rfl : k = k' := Nat.le_antisymm (haltsAfter_le h' h) (haltsAfter_le h h')
    obtain ⟨hk, -⟩ := h
    obtain ⟨hk', -⟩ := h'
    exact ⟨rfl, Host.Outcome.next.inj (hk.symm.trans hk')⟩

end Sys2Proof.Machine
end

section
/-! The rules over all instructions: which register, which byte, which flag and which latch an instruction changes, and where it goes. -/

namespace Sys2Proof.Machine

variable {i : Instr} {s t : State} {k : Reg}

/-! The effect, one component at a time. -/

theorem Effect.rd_of_ne (h : Effect i s t) {r : Reg} (hr : writtenReg i ≠ some r) : t.rd r = s.rd r := (h.regs r).trans (if_neg hr)

theorem Effect.rd_written (h : Effect i s t) (hk : writtenReg i = some k) : t.rd k = resultByte s i := (h.regs k).trans (if_pos hk)

theorem Effect.sameRegs (h : Effect i s t) (hi : writtenReg i = none) : SameRegs s t :=
  fun _ => h.rd_of_ne fun e => nomatch hi.symm.trans e

theorem Effect.z_kept (h : Effect i s t) (hi : zWriter i = false) : t.z = s.z := by
  rw [h.z, hi, if_neg Bool.false_ne_true]

theorem Effect.z_written (h : Effect i s t) (hi : zWriter i = true) : t.z = true ↔ resultByte s i = 0 := by
  rw [h.z, if_pos hi, decide_eq_true_iff]

theorem Effect.halted_kept (h : Effect i s t) (hi : i ≠ .hlt) : t.halted = s.halted := h.halted.trans (if_neg hi)

theorem Effect.sameDisplay (h : Effect i s t) (hi : i ≠ .out) : SameDisplay s t := ⟨h.out.trans (if_neg hi), h.outs.trans (if_neg hi)⟩

theorem Effect.read_of_not_sav (h : Effect i s t) {a : Byte} (hi : ∀ r, i ≠ .sav r a) : t.mem.read a = s.mem.read a := by
  rw [h.mem, read_memAfter_of_not_sav s hi]

theorem Effect.sameMemory (h : Effect i s t) (hi : ∀ r a, i ≠ .sav r a) : SameMemory s t :=
  fun a => h.read_of_not_sav fun r => hi r a

theorem Effect.pc_sequential (h : Effect i s t) (hi : takenTarget s i = none) : t.pc = nextAddr s.pc i.length := by
  rw [h.pc, hi, Option.getD_none]

theorem Effect.pcPast (h : Effect i s t) (hi : takenTarget s i = none) : PcPast i.length s t := by
  rw [PcPast, h.pc_sequential hi, nextAddr_toNat]

/-! The rules. -/

/-- Settles O40, from the effect on the registers. -/
theorem onlyTabledRegisterWritten : Obligations.OnlyTabledRegisterWritten := fun _ _ _ h _ hr => (exec_effect h).rd_of_ne hr

/-- Settles O41: the flag is set from the result, which is what the register then holds, or CMP's difference. -/
theorem onlyZWritersWriteFlag : Obligations.OnlyZWritersWriteFlag := by
  intro i s t h
  have ht := exec_effect h
  refine ⟨ht.z_kept, fun k hi hk => ?_, ?_⟩
  · rw [ht.rd_written hk, ht.z_written hi]
  · rintro rs rd rfl
    rw [ht.z_written rfl, resultByte, sub_eq_zero_iff_eq]

/-- Settles O43: `Memory.write` writes one address. -/
theorem onlySavWritesMemory : Obligations.OnlySavWritesMemory := by
  intro i s t h a
  have ht := exec_effect h
  refine ⟨ht.read_of_not_sav, ?_⟩
  rintro r rfl
  rw [ht.mem, memAfter, Memory.read_write_self]

/-- Settles O44, from the effect on the display. -/
theorem onlyOutChangesDisplay : Obligations.OnlyOutChangesDisplay :=
  fun _ _ _ h => ⟨(exec_effect h).sameDisplay, fun hi => ⟨(exec_effect h).out.trans (if_pos hi), (exec_effect h).outs.trans (if_pos hi)⟩⟩

/-- Settles O47, from the effect on the program counter. -/
theorem onlyJumpsTransferControl : Obligations.OnlyJumpsTransferControl := by
  intro i s t h
  have ht := exec_effect h
  refine ⟨fun aa haa => ?_, ht.pcPast⟩
  rw [ht.pc, haa, Option.getD_some]

/-! HLT and the byte at the program counter. -/

/-- The byte 0x20 is HLT and no other instruction's (R52). -/
theorem fetch_hlt_iff (h : fetch params s = .next i) : i = .hlt ↔ s.mem.read s.pc = some 0x20 := by
  constructor
  · rintro rfl
    cases bytes_of_fetch h with
    | one h0 => exact h0
  · intro h0
    cases (fetch_of_bytes (.whole (decodeFirst_sysShape 0b10)) (.one h0)).symm.trans h
    rfl

/-- Settles O46: of the instructions, only HLT sets the latch. -/
theorem onlyHltHalts : Obligations.OnlyHltHalts := by
  intro s t h
  obtain ⟨hrun, i, hfetch, hexec⟩ := step_eq_next.1 h
  refine ⟨hrun, ?_⟩
  rw [← fetch_hlt_iff hfetch, (exec_effect hexec).halted, hrun]
  simp

/-! Stores that are read again. -/

/-- Settles O49: the store leaves the machine running at the byte stored, which is the encoding of the next instruction. -/
theorem storeSeenByNextFetch : Obligations.StoreSeenByNextFetch := by
  intro r s b0 b1 i hrun hsav h0 h1 hi
  obtain ⟨t, hexec, ht⟩ := exec_has_effect (.sav r (nextAddr s.pc 2)) s nofun
  have hpc : t.pc = nextAddr s.pc 2 := ht.pc_sequential rfl
  have hbyte : t.mem.read t.pc = some (s.rd r) := by rw [hpc, ht.mem, memAfter, Memory.read_write_self]
  have hstep := step_of_bytes hrun (hsav ▸ encodedAs_encode _) (.two h0 h1)
  exact ⟨t, hstep.trans hexec, hpc, step_of_bytes ((ht.halted_kept nofun).trans hrun) (encodedAs_of_decode hi) (.one hbyte)⟩

/-- Settles O48: after the store the byte at the address has been written, so LDM goes on with it. -/
theorem loadAfterStore : Obligations.LoadAfterStore := by
  intro r q aa s
  obtain ⟨t, hexec, ht⟩ := exec_has_effect (.sav r aa) s nofun
  have hbyte : t.mem.read aa = some (s.rd r) := by rw [ht.mem, memAfter, Memory.read_write_self]
  refine ⟨jumpTo (t.wr q (s.rd r)) (nextAddr t.pc 2), ?_, ?_⟩
  · rw [followedBy, hexec, andThen_next, exec_ldm_of_read hbyte]
  · rw [jumpTo_rd, State.rd_wr_self]

end Sys2Proof.Machine
end

section
/-! The instructions one by one: result, flag and frame (R80 to R135). -/

namespace Sys2Proof.Machine

/-! The frame of an instruction that writes one register. -/

theorem onlyRegister_of_effect {i : Instr} {s t : State} {k : Reg} (h : Effect i s t) (hk : writtenReg i = some k) :
    OnlyRegister k i.length s t := by
  obtain ⟨hjump, hhlt, hout, hmem⟩ := noOtherEffect_of_writtenReg hk s
  exact {
    regs := fun r hr => h.rd_of_ne fun e => hr (Option.some.inj (e.symm.trans hk))
    memory := fun a => by rw [h.mem, hmem]
    display := h.sameDisplay hout
    halted := h.halted_kept hhlt
    pc := h.pcPast hjump }

/-- A writer of the flag is one byte long, goes on from every state, and does not jump. -/
theorem plain_of_zWriter {i : Instr} (h : zWriter i = true) (s : State) :
    (∀ r aa, i ≠ .ldm r aa) ∧ i.length = 1 ∧ takenTarget s i = none := by
  cases i <;> simp_all [zWriter, Instr.length, takenTarget]

/-- An instruction of `Z_WRITERS` that writes a register: its result there, the flag from it, and its frame. -/
theorem exec_resultInstr {i : Instr} {k : Reg} (s : State) (hz : zWriter i = true) (hk : writtenReg i = some k) :
    ∃ t, exec i s = .next t ∧ t.rd k = resultByte s i ∧ (t.z = true ↔ resultByte s i = 0) ∧ OnlyRegister k 1 s t := by
  obtain ⟨hldm, hlen, -⟩ := plain_of_zWriter hz s
  obtain ⟨t, ht, he⟩ := exec_has_effect i s hldm
  exact ⟨t, ht, he.rd_written hk, he.z_written hz, hlen ▸ onlyRegister_of_effect he hk⟩

/-! NOP, OUT and HLT. -/

/-- Settles O20, from NOP's effect. -/
theorem nopOnlyAdvances : Obligations.NopOnlyAdvances := by
  intro s
  obtain ⟨t, ht, he⟩ := exec_has_effect .nop s nofun
  exact ⟨t, ht, he.pcPast rfl, he.sameRegs rfl, he.z_kept rfl, he.halted_kept nofun, he.sameDisplay nofun, he.sameMemory nofun⟩

/-- Settles O21, from OUT's effect. -/
theorem outDisplaysRegisterA : Obligations.OutDisplaysRegisterA := by
  intro s
  obtain ⟨t, ht, he⟩ := exec_has_effect .out s nofun
  exact ⟨t, ht, he.out, he.outs, he.pcPast rfl, he.sameRegs rfl, he.z_kept rfl, he.halted_kept nofun, he.sameMemory nofun⟩

/-- Settles O22: HLT's effect leaves a halted state. -/
theorem hltHaltsForGood : Obligations.HltHaltsForGood := by
  intro s
  obtain ⟨t, ht, he⟩ := exec_has_effect .hlt s nofun
  exact ⟨t, ht, he.halted, step_of_halted he.halted, he.pcPast rfl, he.sameRegs rfl, he.z_kept rfl, he.sameDisplay nofun,
    he.sameMemory nofun⟩

/-! Arithmetic. -/

/-- A difference of bytes is the integer difference modulo 256 (R94). -/
theorem toNat_sub_eq_emod (a b : Byte) : ((a - b).toNat : Int) = ((a.toNat : Int) - (b.toNat : Int)) % 256 := by
  rw [BitVec.toNat_sub]
  have := b.isLt
  omega

/-- Settles O23: the sum of bytes is the sum modulo 256. -/
theorem addWritesSumToFirst : Obligations.AddWritesSumToFirst := by
  intro rs rd s
  obtain ⟨t, ht, hres, hz, honly⟩ := exec_resultInstr (i := .add rs rd) s rfl rfl
  have hsum : (resultByte s (.add rs rd)).toNat = ((s.rd rs).toNat + (s.rd rd).toNat) % 256 := BitVec.toNat_add _ _
  exact ⟨t, ht, hres ▸ hsum, by rw [hz, ← BitVec.toNat_inj, hsum]; rfl, honly⟩

/-- Settles O24: a difference is zero exactly when its operands are equal. -/
theorem subWritesDifferenceToFirst : Obligations.SubWritesDifferenceToFirst := by
  intro rs rd s
  obtain ⟨t, ht, hres, hz, honly⟩ := exec_resultInstr (i := .sub rs rd) s rfl rfl
  exact ⟨t, ht, hres ▸ toNat_sub_eq_emod _ _, hz.trans (sub_eq_zero_iff_eq _ _), honly⟩

/-- Settles O25: one more is zero exactly from 0xFF. -/
theorem incAddsOne : Obligations.IncAddsOne := by
  intro r s
  obtain ⟨t, ht, hres, hz, honly⟩ := exec_resultInstr (i := .inc r) s rfl rfl
  have hzero : s.rd r + 1 = 0 ↔ s.rd r = 0xFF := by constructor <;> intro h <;> bv_omega
  exact ⟨t, ht, hres ▸ BitVec.toNat_add _ _, hz.trans hzero, honly⟩

/-- Settles O26: DEC is the difference with 1. -/
theorem decSubtractsOne : Obligations.DecSubtractsOne := by
  intro r s
  obtain ⟨t, ht, hres, hz, honly⟩ := exec_resultInstr (i := .dec r) s rfl rfl
  exact ⟨t, ht, hres ▸ toNat_sub_eq_emod _ 1, hz.trans (sub_eq_zero_iff_eq _ _), honly⟩

/-! Loads, stores and moves. -/

/-- Settles O27, from LDI's effect. -/
theorem ldiLoadsOperand : Obligations.LdiLoadsOperand := by
  intro r vv s
  obtain ⟨t, ht, he⟩ := exec_has_effect (.ldi r vv) s nofun
  exact ⟨t, ht, he.rd_written rfl, he.z_kept rfl, onlyRegister_of_effect he rfl⟩

/-- Settles O28, from LDM's effect on a written byte. -/
theorem ldmLoadsByte : Obligations.LdmLoadsByte := by
  intro r aa v s hv
  have he := effect_ldm (r := r) hv
  exact ⟨_, exec_ldm_of_read hv, State.rd_wr_self s r v, he.z_kept rfl, onlyRegister_of_effect he rfl⟩

/-- Settles O30: the effective address of the operand is the operand. -/
theorem savStoresByte : Obligations.SavStoresByte := by
  intro r aa s
  obtain ⟨t, ht, he⟩ := exec_has_effect (.sav r aa) s nofun
  refine ⟨t, ht, ?_, he.sameRegs rfl, he.z_kept rfl, he.halted_kept nofun, he.sameDisplay nofun, he.pcPast rfl⟩
  rintro a rfl
  rw [effectiveAddress_eq]
  refine ⟨by rw [he.mem, memAfter, Memory.read_write_self], fun b hb => he.read_of_not_sav fun q e => ?_⟩
  cases e
  exact hb rfl

/-- Settles O34, from MOV's effect. -/
theorem movCopiesFirstToSecond : Obligations.MovCopiesFirstToSecond := by
  intro rs rd s
  obtain ⟨t, ht, he⟩ := exec_has_effect (.mov rs rd) s nofun
  exact ⟨t, ht, he.rd_written rfl, he.z_kept rfl, onlyRegister_of_effect he rfl⟩

/-! Logic. -/

/-- Two bytes have no bit in common exactly when their conjunction is zero (R125). -/
theorem and_eq_zero_iff_no_common_bit (a b : Byte) : a &&& b = 0 ↔ ∀ n, ¬ (a.getLsbD n = true ∧ b.getLsbD n = true) := by
  constructor
  · rintro h n ⟨ha, hb⟩
    have hbit : (a &&& b).getLsbD n = false := by rw [h]; exact BitVec.getLsbD_zero
    rw [BitVec.getLsbD_and, ha, hb] at hbit
    cases hbit
  · intro h
    refine BitVec.eq_of_getLsbD_eq fun n _ => ?_
    rw [BitVec.getLsbD_and, show (0 : Byte).getLsbD n = false from BitVec.getLsbD_zero, ← Bool.not_eq_true, Bool.and_eq_true]
    exact h n

/-- Settles O35, bit by bit. -/
theorem andIsBitwise : Obligations.AndIsBitwise := by
  intro rs rd s
  obtain ⟨t, ht, hres, hz, honly⟩ := exec_resultInstr (i := .and rs rd) s rfl rfl
  exact ⟨t, ht, fun n => hres ▸ BitVec.getLsbD_and, hz.trans (and_eq_zero_iff_no_common_bit _ _), honly⟩

/-- Settles O36, bit by bit. -/
theorem orIsBitwise : Obligations.OrIsBitwise := by
  intro rs rd s
  obtain ⟨t, ht, hres, hz, honly⟩ := exec_resultInstr (i := .or rs rd) s rfl rfl
  exact ⟨t, ht, fun n => hres ▸ BitVec.getLsbD_or, hz.trans BitVec.or_eq_zero_iff, honly⟩

/-- Settles O37, bit by bit. -/
theorem xorIsBitwise : Obligations.XorIsBitwise := by
  intro rs rd s
  obtain ⟨t, ht, hres, hz, honly⟩ := exec_resultInstr (i := .xor rs rd) s rfl rfl
  exact ⟨t, ht, fun n => hres ▸ BitVec.getLsbD_xor, hz.trans BitVec.xor_eq_zero_iff, honly⟩

theorem followedBy_of_next {i j : Instr} {s t : State} (h : exec i s = .next t) : followedBy i j s = exec j t := by
  rw [followedBy, h, andThen_next]

/-- Settles O38: the second NOT complements the complement. -/
theorem notComplements : Obligations.NotComplements := by
  intro r s
  obtain ⟨t, ht, hres, hz, honly⟩ := exec_resultInstr (i := .not r) s rfl rfl
  have hzero : ~~~(s.rd r) = 0 ↔ s.rd r = 0xFF := by constructor <;> intro h <;> bv_omega
  refine ⟨⟨t, ht, hres ▸ BitVec.toNat_not, hz.trans hzero, honly⟩, ?_⟩
  obtain ⟨u, hu, hres', -, honly'⟩ := exec_resultInstr (i := .not r) t rfl rfl
  refine ⟨u, (followedBy_of_next ht).trans hu, fun q => ?_⟩
  by_cases hq : q = r
  · rw [hq, hres', resultByte, hres, resultByte, BitVec.not_not]
  · rw [honly'.regs q hq, honly.regs q hq]

/-! Comparing, and jumping on the flag. -/

/-- Settles O39: CMP and SUB have one result. -/
theorem cmpReportsEquality : Obligations.CmpReportsEquality := by
  intro rs rd s
  obtain ⟨t, ht, he⟩ := exec_has_effect (.cmp rs rd) s nofun
  obtain ⟨u, hu, heu⟩ := exec_has_effect (.sub rs rd) s nofun
  exact ⟨t, ht, (he.z_written rfl).trans (sub_eq_zero_iff_eq _ _), he.sameRegs rfl, he.halted_kept nofun, he.sameDisplay nofun,
    he.sameMemory nofun, he.pcPast rfl, u, hu, heu.z.trans he.z.symm⟩

theorem exec_jmz (aa : Byte) (s : State) : exec (.jmz aa) s = .next (jumpTo s (if s.z then aa else nextAddr s.pc 2)) := execJmz_eq aa s

theorem exec_jnz (aa : Byte) (s : State) : exec (.jnz aa) s = .next (jumpTo s (if s.z then nextAddr s.pc 2 else aa)) := execJnz_eq aa s

/-- A step that goes on from a byte which opens a two-byte instruction has read the operand byte. -/
theorem step_reads_operand {s t : State} {b0 : Byte} {o : OperandOp} (h0 : s.mem.read s.pc = some b0) (hd : decodeFirst b0 = .opens o)
    (h : step s = .next t) : ∃ b1, s.mem.read (nextAddr s.pc 1) = some b1 ∧ exec (o.withOperand b1) s = .next t := by
  obtain ⟨-, i, hfetch, hexec⟩ := step_eq_next.1 h
  obtain ⟨b, hb, hcase⟩ := fetch_eq_next.1 hfetch
  cases h0.symm.trans hb
  rcases hcase with hw | ⟨o', b1, ho, h1, rfl⟩
  · cases hd.symm.trans hw
  · cases hd.symm.trans ho
    exact ⟨b1, h1, hexec⟩

/-- After an instruction that writes the flag, a jump on the flag goes by the instruction's result. -/
theorem flag_then_jump {i : Instr} (s : State) (hi : zWriter i = true) (aa : Byte) : ∃ t, Effect i s t ∧
    followedBy i (.jmz aa) s = .next (jumpTo t (if resultByte s i = 0 then aa else nextAddr s.pc 3)) ∧
    followedBy i (.jnz aa) s = .next (jumpTo t (if resultByte s i = 0 then nextAddr s.pc 3 else aa)) := by
  obtain ⟨hldm, hlen, hseq⟩ := plain_of_zWriter hi s
  obtain ⟨t, ht, he⟩ := exec_has_effect i s hldm
  have hpc : nextAddr t.pc 2 = nextAddr s.pc 3 := by rw [he.pc_sequential hseq, hlen, nextAddr_nextAddr]
  refine ⟨t, he, ?_, ?_⟩
  · rw [followedBy_of_next ht, exec_jmz, hpc]
    simp only [he.z_written hi]
  · rw [followedBy_of_next ht, exec_jnz, hpc]
    simp only [he.z_written hi]

/-- Settles O32: JMZ is a jump by the flag, and the instruction before it leaves in the flag whether its result is zero. -/
theorem jmzJumpsIfSet : Obligations.JmzJumpsIfSet := by
  refine ⟨fun aa => ⟨rfl, decodeUndoesEncode (.jmz aa) []⟩, fun aa s => ?_, ?_, ?_, ?_, ?_⟩
  · obtain ⟨hregs, hz, hhalted, hdisplay, hmem⟩ := jumpTo_frame s (if s.z then aa else nextAddr s.pc 2)
    refine ⟨_, exec_jmz aa s, fun h => ?_, fun h => ?_, hregs, hz, hhalted, hdisplay, hmem⟩
    · rw [jumpTo_pc, if_pos h]
    · rw [h, if_neg Bool.false_ne_true]
      exact pcPast_jumpTo_nextAddr 2 s
  · exact fun s t h0 => step_reads_operand (o := .jmz) h0 (decodeFirst_jbShape 0b00 0b01)
  · intro mk rs rd aa s hmk
    obtain ⟨hwriter, hzero⟩ : zWriter (mk rs rd) = true ∧ (resultByte s (mk rs rd) = 0 ↔ s.rd rs = s.rd rd) := by
      simp only [List.mem_cons, List.not_mem_nil, or_false] at hmk
      rcases hmk with rfl | rfl | rfl
      · exact ⟨rfl, sub_eq_zero_iff_eq _ _⟩
      · exact ⟨rfl, sub_eq_zero_iff_eq _ _⟩
      · exact ⟨rfl, BitVec.xor_eq_zero_iff⟩
    obtain ⟨t, -, hjmz, -⟩ := flag_then_jump s hwriter aa
    exact ⟨_, hjmz, by simp only [jumpTo_pc, hzero]⟩
  · intro r aa s
    obtain ⟨t, he, hjmz, -⟩ := flag_then_jump (i := .dec r) s rfl aa
    exact ⟨_, hjmz, by rw [jumpTo_pc, jumpTo_rd, he.rd_written rfl]⟩
  · intro rs rd aa s
    obtain ⟨t, -, hjmz, -⟩ := flag_then_jump (i := .and rs rd) s rfl aa
    exact ⟨_, hjmz, rfl⟩

/-- Settles O33: JNZ is JMZ with the two ways exchanged. -/
theorem jnzJumpsIfNotSet : Obligations.JnzJumpsIfNotSet := by
  refine ⟨fun aa => ⟨rfl, decodeUndoesEncode (.jnz aa) []⟩, fun aa s => ?_, ?_, ?_⟩
  · obtain ⟨hregs, hz, hhalted, hdisplay, hmem⟩ := jumpTo_frame s (if s.z then nextAddr s.pc 2 else aa)
    refine ⟨_, exec_jnz aa s, fun h => ?_, fun h => ?_, hregs, hz, hhalted, hdisplay, hmem, _, exec_jmz aa s, ?_⟩
    · rw [jumpTo_pc, h, if_neg Bool.false_ne_true]
    · rw [if_pos h]
      exact pcPast_jumpTo_nextAddr 2 s
    · cases h : s.z with
      | false => exact .inl ⟨rfl, rfl⟩
      | true => exact .inr ⟨rfl, rfl⟩
  · exact fun s t h0 => step_reads_operand (o := .jnz) h0 (decodeFirst_jbShape 0b00 0b10)
  · intro rs rd aa s
    obtain ⟨t, -, -, hjnz⟩ := flag_then_jump (i := .cmp rs rd) s rfl aa
    exact ⟨_, hjnz, by simp only [jumpTo_pc, resultByte, sub_eq_zero_iff_eq]⟩

end Sys2Proof.Machine
end

section
/-! The alternatives of the parameters (R4, U13), each against the standard machine. -/

namespace Sys2Proof.Machine

/-! PC_WRAP = fault (R15, U6). -/

/-- The first outcome is the second, or the fault PcOverflow of an instruction at `a` within two bytes of the top. -/
def StopsEarlier {α : Type} (a : Byte) (o o' : Host.Outcome α Fault Refusal) : Prop :=
  o = o' ∨ (o = .fault (.pcOverflow a) ∧ 255 < a.toNat + 2)

theorem stopsEarlier_refl {α : Type} (a : Byte) (o : Host.Outcome α Fault Refusal) : StopsEarlier a o o := .inl rfl

theorem stopsEarlier_andThen {α β : Type} {a : Byte} {o o' : Host.Outcome α Fault Refusal} {k k' : α → Host.Outcome β Fault Refusal}
    (ho : StopsEarlier a o o') (hk : ∀ v, StopsEarlier a (k v) (k' v)) : StopsEarlier a (andThen o k) (andThen o' k') := by
  rcases ho with rfl | ⟨rfl, ha⟩
  · cases o with
    | next v => exact hk v
    | fault f => exact stopsEarlier_refl a _
    | refused q => exact stopsEarlier_refl a _
  · exact .inr ⟨rfl, ha⟩

theorem stepAddr_stopsEarlier {n : Nat} (hn : n ≤ 2) (pc : Byte) :
    StopsEarlier pc (stepAddr faultingPc pc n) (stepAddr params pc n) := by
  rw [stepAddr_params, stepAddr_fault rfl]
  split
  · exact .inr ⟨rfl, by omega⟩
  · exact stopsEarlier_refl pc _

theorem advance_stopsEarlier {n : Nat} (hn : n ≤ 2) (s : State) : StopsEarlier s.pc (advance faultingPc n s) (advance params n s) :=
  stopsEarlier_andThen (stepAddr_stopsEarlier hn s.pc) fun _ => stopsEarlier_refl _ _

theorem finish_stopsEarlier {n : Nat} (hn : n ≤ 2) (op : ResultOp) (k : Reg) (v : Byte) (s : State) :
    StopsEarlier s.pc (finish faultingPc op k v s n) (finish params op k v s n) := by
  have h := advance_stopsEarlier hn (setZ params op v (s.wr k v))
  rw [setZ_pc, State.wr_pc] at h
  exact h

theorem branch_stopsEarlier (taken : Bool) (aa : Byte) (s : State) :
    StopsEarlier s.pc (branch faultingPc taken aa s) (branch params taken aa s) := by
  cases taken with
  | true => exact stopsEarlier_refl _ _
  | false => exact advance_stopsEarlier (Nat.le_refl 2) s

theorem execIn_stopsEarlier (i : Instr) (s : State) : StopsEarlier s.pc (execIn faultingPc i s) (exec i s) := by
  cases i with
  | nop => exact advance_stopsEarlier (Nat.le_succ 1) s
  | out => exact advance_stopsEarlier (Nat.le_succ 1) (s.display (s.rd .A))
  | hlt => exact advance_stopsEarlier (Nat.le_succ 1) s.halt
  | add rs rd => exact finish_stopsEarlier (Nat.le_succ 1) _ _ _ s
  | sub rs rd => exact finish_stopsEarlier (Nat.le_succ 1) _ _ _ s
  | inc r => exact finish_stopsEarlier (Nat.le_succ 1) _ _ _ s
  | dec r => exact finish_stopsEarlier (Nat.le_succ 1) _ _ _ s
  | ldi r vv => exact finish_stopsEarlier (Nat.le_refl 2) _ _ _ s
  | ldm r aa => exact stopsEarlier_andThen (stopsEarlier_refl _ _) fun v => finish_stopsEarlier (Nat.le_refl 2) _ _ v s
  | sav r aa => exact advance_stopsEarlier (Nat.le_refl 2) (s.storeByte params aa (s.rd r))
  | jmp aa => exact stopsEarlier_refl _ _
  | jmz aa => exact branch_stopsEarlier s.z aa s
  | jnz aa => exact branch_stopsEarlier (!s.z) aa s
  | mov rs rd => exact finish_stopsEarlier (Nat.le_succ 1) _ _ _ s
  | and rs rd => exact finish_stopsEarlier (Nat.le_succ 1) _ _ _ s
  | or rs rd => exact finish_stopsEarlier (Nat.le_succ 1) _ _ _ s
  | xor rs rd => exact finish_stopsEarlier (Nat.le_succ 1) _ _ _ s
  | not r => exact finish_stopsEarlier (Nat.le_succ 1) _ _ _ s
  | cmp rs rd =>
    have h := advance_stopsEarlier (Nat.le_succ 1) (setZ params .cmp (narrow params.xlen (exactDifference .sMinusD (s.rd rs) (s.rd rd))) s)
    rw [setZ_pc] at h
    exact h

theorem fetch_stopsEarlier (s : State) : StopsEarlier s.pc (fetch faultingPc s) (fetch params s) := by
  rw [fetch_eq, fetch_eq]
  refine stopsEarlier_andThen (stopsEarlier_refl _ _) fun b0 => ?_
  cases decodeFirst b0 with
  | illegal => exact stopsEarlier_refl _ _
  | whole i => exact stopsEarlier_refl _ _
  | opens o => exact stopsEarlier_andThen (stepAddr_stopsEarlier (Nat.le_succ 1) s.pc) fun _ => stopsEarlier_refl _ _

/-- Settles O50: the fetch and the instruction it answers each stop earlier at most. -/
theorem faultingPcOnlyStopsEarlier : Obligations.FaultingPcOnlyStopsEarlier := by
  intro s
  show StopsEarlier s.pc (stepIn faultingPc s) (step s)
  unfold stepIn step
  split
  · exact stopsEarlier_refl _ _
  · exact stopsEarlier_andThen (fetch_stopsEarlier s) fun i => execIn_stopsEarlier i s

/-! SAME_REG = refuse (R66, U5). -/

theorem sameRegister_eq_some {i : Instr} {r : Reg} : i.sameRegister = some r ↔ i.registerPair = some (r, r) := by
  unfold Instr.sameRegister
  split
  next rs rd h =>
    rw [h]
    by_cases e : rs = rd
    · simp [e]
    · simp only [if_neg e, Option.some.injEq, Prod.mk.injEq, reduceCtorEq, false_iff]
      rintro ⟨rfl, rfl⟩
      exact e rfl
  next h => simp [h]

theorem andThen_assoc {α β γ : Type} (o : Host.Outcome α Fault Refusal) (k : α → Host.Outcome β Fault Refusal)
    (l : β → Host.Outcome γ Fault Refusal) : andThen (andThen o k) l = andThen o fun v => andThen (k v) l := by
  cases o <;> rfl

/-- The variant fetches as the standard machine and then checks the form. -/
theorem fetch_refusingSameReg (s : State) : fetch refusingSameReg s = andThen (fetch params s) (checkForm refusingSameReg) := by
  rw [fetch_eq, fetch_eq, andThen_assoc]
  refine congrArg (andThen (readByte s.mem s.pc)) (funext fun b0 => ?_)
  cases decodeFirst b0 with
  | illegal => rfl
  | whole i => rfl
  | opens o =>
    simp only [andThen_assoc]
    rfl

theorem execIn_refusingSameReg (i : Instr) (s : State) : execIn refusingSameReg i s = exec i s := by cases i <;> rfl

theorem checkForm_refusingSameReg_of_same {i : Instr} {r : Reg} (h : i.registerPair = some (r, r)) :
    checkForm refusingSameReg i = .refused (.sameRegister r) := by
  simp only [checkForm, refusingSameReg, sameRegister_eq_some.2 h]

theorem checkForm_refusingSameReg_of_not_same {i : Instr} (h : ∀ r, i.registerPair ≠ some (r, r)) :
    checkForm refusingSameReg i = .next i := by
  have hnone : i.sameRegister = none := Option.eq_none_iff_forall_ne_some.2 fun r e => h r (sameRegister_eq_some.1 e)
  simp only [checkForm, refusingSameReg, hnone]

/-- Settles O51: the check after the fetch refuses the same-register forms and passes the others. -/
theorem refusingSameRegisterOnlyStopsEarlier : Obligations.RefusingSameRegisterOnlyStopsEarlier := by
  intro s
  refine ⟨fun i r hrun hfetch hpair => ?_, fun h => ?_⟩
  · rw [stepIn, hrun, if_neg Bool.false_ne_true, fetch_refusingSameReg, hfetch, andThen_next,
      checkForm_refusingSameReg_of_same hpair, andThen_refused]
  · cases hh : s.halted with
    | true => rw [stepIn, hh, if_pos rfl, step_of_halted hh]
    | false =>
      have hother := h.resolve_left (Bool.eq_false_iff.1 hh)
      rw [stepIn, hh, if_neg Bool.false_ne_true, fetch_refusingSameReg, step_of_running hh, andThen_assoc]
      cases hf : fetch params s with
      | next i =>
        rw [andThen_next, andThen_next, checkForm_refusingSameReg_of_not_same (hother i · hf), andThen_next, execIn_refusingSameReg]
      | fault f => rfl
      | refused q => rfl

/-! The other order of SUB and the other destination (U13, D8 to D10). -/

/-- The end of a result-writing instruction under any configuration whose program counter wraps. -/
theorem finish_has_result {c : Config} (hc : c.pcWrap = .wrap) (op : ResultOp) (k : Reg) (v : Byte) (s : State) :
    ∃ t, finish c op k v s 1 = .next t ∧ t.rd k = v ∧ (t.z = if writesZ c op then zeroFlag c.zRule v else s.z) ∧
      OnlyRegister k 1 s t := by
  refine ⟨_, finish_wrap hc op k v s 1, ?_, ?_, ?_⟩
  · rw [jumpTo_rd, setZ_rd, State.rd_wr_self]
  · rw [jumpTo_z, setZ_z, State.wr_z]
  · exact {
      regs := fun r hr => by rw [jumpTo_rd, setZ_rd, State.rd_wr_ne s k v hr]
      memory := fun a => by rw [jumpTo_mem, setZ_mem, State.wr_mem]
      display := ⟨by rw [jumpTo_out, setZ_out, State.wr_out], by rw [jumpTo_outs, setZ_outs, State.wr_outs]⟩
      halted := by rw [jumpTo_halted, setZ_halted, State.wr_halted]
      pc := by rw [PcPast, jumpTo_pc, nextAddr_toNat] }

/-- Two states that came from one by the same kind of instruction differ in its register and the flag at most. -/
theorem onlyRegister_of_common {k : Reg} {n : Nat} {s t u : State} (ht : OnlyRegister k n s t) (hu : OnlyRegister k n s u) :
    OnlyRegister k 0 t u where
  regs r hr := (hu.regs r hr).trans (ht.regs r hr).symm
  memory a := (hu.memory a).trans (ht.memory a).symm
  display := ⟨hu.display.1.trans ht.display.1.symm, hu.display.2.trans ht.display.2.symm⟩
  halted := hu.halted.trans ht.halted.symm
  pc := by
    have htpc : t.pc.toNat = _ := ht.pc
    have hupc : u.pc.toNat = _ := hu.pc
    rw [PcPast, hupc, htpc, Nat.add_zero, Nat.mod_mod]

/-- The two differences are each other's negation. -/
theorem toNat_sub_add_toNat_sub (a b : Byte) : ((b - a).toNat + (a - b).toNat) % 256 = 0 := by
  rw [← BitVec.toNat_add (b - a) (a - b)]
  bv_omega

theorem zeroFlag_sub_comm (rule : ZRule) (a b : Byte) : zeroFlag rule (b - a) = zeroFlag rule (a - b) := by
  rw [Bool.eq_iff_iff, zeroFlag_eq_true, zeroFlag_eq_true, sub_eq_zero_iff_eq, sub_eq_zero_iff_eq, eq_comm]

/-- Settles O53: the two differences are negations of each other, and zero together. -/
theorem otherSubOrderNegates : Obligations.OtherSubOrderNegates := by
  intro rs rd s
  obtain ⟨t, ht, htrd, htz, htonly⟩ := finish_has_result (c := params) rfl .sub rs (s.rd rs - s.rd rd) s
  obtain ⟨u, hu, hurd, huz, huonly⟩ := finish_has_result (c := reversedSub) rfl .sub rs (s.rd rd - s.rd rs) s
  refine ⟨t, u, (execSubIn_eq rs rd s params).trans ht, (execSubIn_eq rs rd s reversedSub).trans hu, ?_, ?_,
    onlyRegister_of_common htonly huonly⟩
  · rw [htrd, hurd, toNat_sub_add_toNat_sub]
  · rw [htz, huz]
    exact zeroFlag_sub_comm .setIfZero _ _

/-- An instruction that under the labels ends with the standard machine's result in D. -/
theorem labelled_result {i : Instr} {op : ResultOp} {rs rd : Reg} {v : Byte} {s : State} (hexec : exec i s = finish params op rs v s 1)
    (hexecIn : execIn labelledDest i s = finish labelledDest op rd v s 1) :
    ∃ t u, exec i s = .next t ∧ execIn labelledDest i s = .next u ∧ u.rd rd = t.rd rs ∧ u.z = t.z ∧ OnlyRegister rd 1 s u := by
  obtain ⟨t, ht, htrd, htz, -⟩ := finish_has_result (c := params) rfl op rs v s
  obtain ⟨u, hu, hurd, huz, huonly⟩ := finish_has_result (c := labelledDest) rfl op rd v s
  exact ⟨t, u, hexec.trans ht, hexecIn.trans hu, hurd.trans htrd.symm, huz.trans htz.symm, huonly⟩

/-- Settles O54: each of the five instructions computes the same byte under both destinations. -/
theorem labelledDestinationGetsSameValue : Obligations.LabelledDestinationGetsSameValue := by
  intro mk rs rd s hmk
  simp only [List.mem_cons, List.not_mem_nil, or_false] at hmk
  rcases hmk with rfl | rfl | rfl | rfl | rfl
  all_goals exact labelled_result rfl rfl

end Sys2Proof.Machine
end

section
/-! The assembler's spelling (R67): a printed line is its words with one space between them, and reading finds those words again. -/

namespace Sys2Proof.Machine

/-! Characters. -/

theorem parseReg_regLetter (r : Reg) : parseReg [regLetter r] = some r := by cases r <;> decide

theorem parseDigit_hexDigit {n : Nat} (h : n < 16) : parseDigit (hexDigit n) = some n := by
  revert n
  decide

theorem hexDigit_ne {n : Nat} (h : n < 16) : hexDigit n ≠ ' ' ∧ hexDigit n ≠ ';' := by
  revert n
  decide

/-- A byte is read back from its two digits. -/
theorem parseByte_printByte (b : Byte) : parseByte (printByte b) = some b := by
  have hb := b.isLt
  have hsum : 16 * (b.toNat / 16) + b.toNat % 16 = b.toNat := Nat.div_add_mod _ _
  simp only [parseByte, printByte, parseDigit_hexDigit (show b.toNat / 16 < 16 by omega), parseDigit_hexDigit (show b.toNat % 16 < 16 by omega),
    and_self, if_true, hsum, BitVec.ofNat_toNat, BitVec.setWidth_eq]

/-! Words. -/

/-- The first word of an instruction's line. -/
def mnemonic : Instr → List Char
  | .nop => ['N', 'O', 'P']
  | .out => ['O', 'U', 'T']
  | .hlt => ['H', 'L', 'T']
  | .add _ _ => ['A', 'D', 'D']
  | .sub _ _ => ['S', 'U', 'B']
  | .inc _ => ['I', 'N', 'C']
  | .dec _ => ['D', 'E', 'C']
  | .ldi _ _ => ['L', 'D', 'I']
  | .ldm _ _ => ['L', 'D', 'M']
  | .sav _ _ => ['S', 'A', 'V']
  | .jmp _ => ['J', 'M', 'P']
  | .jmz _ => ['J', 'M', 'Z']
  | .jnz _ => ['J', 'N', 'Z']
  | .mov _ _ => ['M', 'O', 'V']
  | .and _ _ => ['A', 'N', 'D']
  | .or _ _ => ['O', 'R']
  | .xor _ _ => ['X', 'O', 'R']
  | .not _ => ['N', 'O', 'T']
  | .cmp _ _ => ['C', 'M', 'P']

/-- The words after it. -/
def operandWords : Instr → List (List Char)
  | .nop | .out | .hlt => []
  | .inc r | .dec r | .not r => [[regLetter r]]
  | .jmp aa | .jmz aa | .jnz aa => [printByte aa]
  | .ldi r b | .ldm r b | .sav r b => [[regLetter r], printByte b]
  | .add rs rd | .sub rs rd | .mov rs rd | .and rs rd | .or rs rd | .xor rs rd | .cmp rs rd => [[regLetter rs], [regLetter rd]]

theorem printLine_eq_intercalate (i : Instr) : printLine i = [' '].intercalate (mnemonic i :: operandWords i) := by cases i <;> rfl

/-- A word: at least one character, and none that separates words or begins a comment. -/
structure IsWord (w : List Char) : Prop where
  nonempty : w ≠ []
  noSpace : ' ' ∉ w
  noSemicolon : ';' ∉ w

theorem isWord_regLetter (r : Reg) : IsWord [regLetter r] := by cases r <;> exact ⟨by decide, by decide, by decide⟩

theorem isWord_printByte (b : Byte) : IsWord (printByte b) := by
  have hb := b.isLt
  obtain ⟨hhigh, hhigh'⟩ := hexDigit_ne (show b.toNat / 16 < 16 by omega)
  obtain ⟨hlow, hlow'⟩ := hexDigit_ne (show b.toNat % 16 < 16 by omega)
  constructor <;> simp [printByte, hhigh.symm, hhigh'.symm, hlow.symm, hlow'.symm]

theorem isWord_mnemonic (i : Instr) : IsWord (mnemonic i) := by
  cases i <;> constructor <;> simp [mnemonic]

theorem isWord_of_mem_line {i : Instr} {w : List Char} (h : w ∈ mnemonic i :: operandWords i) : IsWord w := by
  rcases List.mem_cons.1 h with rfl | h
  · exact isWord_mnemonic i
  · have hall : ∀ w ∈ operandWords i, IsWord w := by cases i <;> simp [operandWords, isWord_regLetter, isWord_printByte]
    exact hall w h

/-! Reading the words of a line. -/

/-- Before the first semicolon nothing is comment. -/
theorem withoutComment_append {l : List Char} (h : ';' ∉ l) (rest : List Char) :
    withoutComment (l ++ rest) = l ++ withoutComment rest := by
  induction l with
  | nil => rfl
  | cons ch l ih =>
    obtain ⟨hch, hl⟩ := not_or.1 (mt List.mem_cons.2 h)
    rw [List.cons_append, withoutComment, if_neg (Ne.symm hch), ih hl, List.cons_append]

/-- Up to the next space, what is read is one word. -/
theorem wordsFrom_append {l : List Char} (h : ' ' ∉ l) (word rest : List Char) :
    wordsFrom word (l ++ rest) = wordsFrom (word ++ l) rest := by
  induction l generalizing word with
  | nil => rw [List.nil_append, List.append_nil]
  | cons ch l ih =>
    obtain ⟨hch, hl⟩ := not_or.1 (mt List.mem_cons.2 h)
    rw [List.cons_append, wordsFrom, if_neg (Ne.symm hch), ih hl, List.append_assoc, List.singleton_append]

theorem wordsFrom_intercalate {ws : List (List Char)} (h : ∀ w ∈ ws, IsWord w) : wordsFrom [] ([' '].intercalate ws) = ws := by
  induction ws with
  | nil => rfl
  | cons w ws ih =>
    obtain ⟨hw, hws⟩ := List.forall_mem_cons.1 h
    have hread (rest : List Char) : wordsFrom [] (w ++ rest) = wordsFrom w rest := wordsFrom_append hw.noSpace [] rest
    cases ws with
    | nil =>
      have hlast := hread []
      rw [List.append_nil, wordsFrom, if_neg hw.nonempty] at hlast
      rw [List.intercalate_singleton, hlast]
    | cons v vs =>
      rw [List.intercalate_cons_cons, List.append_assoc, hread, List.singleton_append, wordsFrom, if_pos rfl, if_neg hw.nonempty, ih hws]

theorem semicolon_not_mem_intercalate {ws : List (List Char)} (h : ∀ w ∈ ws, IsWord w) : ';' ∉ [' '].intercalate ws := by
  induction ws with
  | nil => exact List.not_mem_nil
  | cons w ws ih =>
    obtain ⟨hw, hws⟩ := List.forall_mem_cons.1 h
    cases ws with
    | nil =>
      rw [List.intercalate_singleton]
      exact hw.noSemicolon
    | cons v vs => simp [List.intercalate_cons_cons, hw.noSemicolon, ih hws]

/-- What the words of an instruction's line are read as. -/
theorem parseLine_of_words {line : List Char} {i : Instr} (h : wordsFrom [] (withoutComment line) = mnemonic i :: operandWords i) :
    parseLine line = .instr i := by
  rw [parseLine, h]
  cases i <;> simp [mnemonic, operandWords, plainMnemonic, parseOne, parseTwo, pairMnemonic, regMnemonic, jumpMnemonic, regByteMnemonic,
    AsmLine.ofOption, parseReg_regLetter, parseByte_printByte]

theorem semicolon_not_mem_printLine (i : Instr) : ';' ∉ printLine i :=
  printLine_eq_intercalate i ▸ semicolon_not_mem_intercalate fun _ => isWord_of_mem_line

theorem wordsFrom_printLine (i : Instr) : wordsFrom [] (printLine i) = mnemonic i :: operandWords i := by
  rw [printLine_eq_intercalate, wordsFrom_intercalate fun _ => isWord_of_mem_line]

/-- Settles O55: with or without a comment, the line is read up to where it was printed. -/
theorem assemblyLineReadsBack : Obligations.AssemblyLineReadsBack := by
  intro i comment
  have hread := withoutComment_append (semicolon_not_mem_printLine i)
  refine ⟨parseLine_of_words ?_, parseLine_of_words ?_⟩
  · have hplain := hread []
    rw [List.append_nil, withoutComment, List.append_nil] at hplain
    rw [hplain, wordsFrom_printLine]
  · rw [hread, withoutComment, if_pos rfl, List.append_nil, wordsFrom_printLine]

end Sys2Proof.Machine
end
